-- ==== Sys2Proof/Word.lean ====
section
/-! DEFINITION. The bit-vector words of the block: bytes of the transport (20_memory.md R41), the 24-bit request word
(30_encoding.md R70) and the 64-bit response word (30_encoding.md R73). Every other number of the spec is a natural number (R7). -/

namespace Sys2Proof

/-- A byte on the transport port, and one 8-bit field of a request word. -/
abbrev Byte := BitVec 8

/-- `REQ24`, the request word (R70). -/
abbrev Req24 := BitVec 24

/-- `RSP64`, the response word (R73). -/
abbrev Rsp64 := BitVec 64

end Sys2Proof
end

