-- ==== Sys2Proof/Machine/Bits.lean ====
section
/-! DEFINITION. Byte order, bit order and bit fields (00_scope.md R8, 20_memory.md R42 to R44). -/

namespace Sys2Proof

/-- `v[lo + width - 1 : lo]` (R8). -/
def field (v lo width : Nat) : Nat := (v >>> lo) % 2 ^ width

/-- The `n` bytes of `v`, most significant first (R42): byte `i` is `v[8*(n-1-i)+7 : 8*(n-1-i)]`. -/
def toBytes : Nat → Nat → List Byte
  | 0, _ => []
  | n + 1, v => BitVec.ofNat 8 (v >>> (8 * n)) :: toBytes n v

/-- `Assemble` (R44, R140): the bytes as one unsigned integer, the first byte most significant. -/
def assemble (bytes : List Byte) : Nat :=
  bytes.foldl (fun acc b => (acc <<< 8) ||| b.toNat) 0

/-- The eight bits of a byte as they leave on a most-significant-bit-first bus (R43). -/
def byteWireBits (b : Byte) : List Bool :=
  [b.getLsbD 7, b.getLsbD 6, b.getLsbD 5, b.getLsbD 4, b.getLsbD 3, b.getLsbD 2, b.getLsbD 1, b.getLsbD 0]

/-- The bits of a byte sequence in the order they leave on the wire, first bit first (R43). -/
def wireBits (bytes : List Byte) : List Bool := bytes.flatMap byteWireBits

end Sys2Proof
end

