-- ==== Sys2Proof/Config.lean ====
section
/-! DEFINITION. The configuration the block is built for (00_scope.md R6, 10_state.md R20 to R27), as types of which
every value is legal, with the open bus parameters as fields, and the free values of the spec, which have no body. What is COMPUTED
from a configuration stands in Machine/Validator.lean. -/

namespace Sys2Proof

/-- `MODEL` (R6, R27): the eight supported configurations, by the source's letters. -/
inductive Model where
  | A | B | C | D | E | F | G | H
deriving DecidableEq, Repr

/-- `CFG.R` (R20, R100): a validated resolution width. It carries its check, so that a width the validator refuses cannot
be written down (R107: "structurally unrepresentable"). -/
structure Resolution where
  width : Nat
  valid : 1 ≤ width ∧ width < 16
deriving DecidableEq, Repr

/-- `CFG.COUNT` (R21, R102): the three legal channel counts. -/
inductive ChannelCount where
  | two | four | eight
deriving DecidableEq, Repr

/-- `FRACTION_DENOM_MODE` (R6, R25). -/
inductive DenomMode where
  | resolution    -- denominator 2^R - 1 (the default)
  | sourceFixed   -- denominator 4095
deriving DecidableEq, Repr

/-- `BUS_MODE` and `SCLK_MAX_HZ` (R6, R242): what the platform configures the transport to. The spec leaves both OPEN, values and
kinds, and no rule reads them, so each is named by a number (log entry 12). -/
structure BusParameters where
  mode      : Nat   -- BUS_MODE
  sclkMaxHz : Nat   -- SCLK_MAX_HZ
deriving DecidableEq, Repr

/-- What stands for the bus parameters where one configuration must be written down (`State.reset`, a table word): the spec states no
value, and nothing reads this one (log entries 1 and 12). -/
def BusParameters.unstated : BusParameters := { mode := 0, sclkMaxHz := 0 }

/-- The configuration record (R6): the parameters that are not derived. `A`, `T`, `N` and `DENOM` are derived, never set on their own;
`CHAN_IDX_W` is the width of `Byte`, and `PeriphErr` the type argument of the machine. -/
structure Config where
  resolution : Resolution
  channels   : ChannelCount
  denomMode  : DenomMode
  bus        : BusParameters
deriving DecidableEq, Repr

/-- `ConfigurationError` (R207): a construction that fails, with the operand the validator refused. It has no status code. -/
inductive ConfigurationError where
  | resolution (width : Nat)
  | channels (count : Nat)
deriving DecidableEq, Repr

/-- The unspecified bytes of `TXBUF` and `RXBUF` after a reset input (R38, R240): a FREE VALUE, one for each draw of the
counter `State.freeDraws`. It has no body, so no proof can see a value of it (log entry 3). -/
opaque Config.freeByte : Nat → Byte

end Sys2Proof
end

