-- ==== Sys2Proof/Syntax.lean ====
section
/-! DEFINITION. The instructions of the block: one constructor for each row of spec/opcode_table.json. The block has no
instruction stream; by R1 its "instructions" are the requests it accepts (30_encoding.md R70, R71), the illegal request
space (R72), and the command frames it emits, one row for each model and MODE (R60, R67, R77). -/

namespace Sys2Proof

/-- MODE of a command frame (R62): 1 = single-ended, 0 = differential. -/
inductive Mode where
  | differential | singleEnded
deriving DecidableEq, Repr

/-- A word at one of the block's ports, before decoding: a 24-bit request word at the caller's port (R70), or the bytes of a
command frame at the encoder's output, first byte first (R8, R42). A request word and a frame of three bytes can have the same
bits (`SE_READ 0` is 0x010000 and so is `DIFF_FRAME_B 0`), so the port is part of the word (log entry 5). -/
inductive PortWord where
  | request (w : Req24)
  | frame (bytes : List Byte)
deriving DecidableEq, Repr

/-- The instructions, row by row of the opcode table. A request carries its raw channel indices, 0 to 255 (R70); a frame carries
its ADDRESS field, `A` bits wide (R63). -/
inductive Instr where
  | seRead (p : Byte)
  | diffRead (p m : Byte)
  | illegal (op p m : Byte)
  | seFrameA (a : BitVec 1)
  | diffFrameA (a : BitVec 1)
  | seFrameB (a : BitVec 3)
  | diffFrameB (a : BitVec 3)
  | seFrameC (a : BitVec 3)
  | diffFrameC (a : BitVec 3)
  | seFrameD (a : BitVec 1)
  | diffFrameD (a : BitVec 1)
  | seFrameE (a : BitVec 3)
  | diffFrameE (a : BitVec 3)
  | seFrameF (a : BitVec 3)
  | diffFrameF (a : BitVec 3)
  | seFrameG (a : BitVec 3)
  | diffFrameG (a : BitVec 3)
  | seFrameH (a : BitVec 3)
  | diffFrameH (a : BitVec 3)
deriving DecidableEq, Repr

end Sys2Proof
end

