-- ==== Sys2Proof/Machine/Validator.lean ====
section
/-! DEFINITION. The construction-time validators (40_validation.md R100 to R103, R107), the table of supported models
(10_state.md R27) and the configuration constants a configuration gives (10_state.md R20 to R25). -/

namespace Sys2Proof

/-- `Resolution.create(width)` (R100). -/
def Resolution.create (width : Nat) : Except ConfigurationError Resolution :=
  if h : 1 ≤ width ∧ width < 16 then .ok ⟨width, h⟩ else .error (.resolution width)

/-- `Resolution.range()` (R101): minimum and maximum. -/
def Resolution.range (r : Resolution) : Nat × Nat := (0, 2 ^ r.width - 1)

/-- `Channels.create(count)` (R102). -/
def ChannelCount.create (count : Nat) : Except ConfigurationError ChannelCount :=
  if count = 2 then .ok .two else if count = 4 then .ok .four else if count = 8 then .ok .eight
  else .error (.channels count)

/-- The channel count as a number (R21). -/
def ChannelCount.toNat : ChannelCount → Nat
  | .two => 2
  | .four => 4
  | .eight => 8

/-- `Channels.address_bit_width()` (R103). -/
def ChannelCount.addressBitWidth (c : ChannelCount) : Nat := if c.toNat = 2 then 1 else 3

/-- `CFG.R` (R20). -/
def Config.r (cfg : Config) : Nat := cfg.resolution.width

/-- `CFG.COUNT` (R21). -/
def Config.count (cfg : Config) : Nat := cfg.channels.toNat

/-- `CFG.A` (R22). -/
def Config.a (cfg : Config) : Nat := cfg.channels.addressBitWidth

/-- `CFG.T` (R23): START, MODE, ADDRESS, SAMPLE, NULL and the DATA placeholder. -/
def Config.t (cfg : Config) : Nat := 1 + 1 + cfg.a + 1 + 1 + cfg.r

/-- `CFG.N` (R24): ceil(T / 8). -/
def Config.n (cfg : Config) : Nat := (cfg.t + 7) / 8

/-- `2^R - 1`, the maximum of `Resolution.range()` (R101). -/
def Config.maxValue (cfg : Config) : Nat := cfg.resolution.range.2

/-- `CFG.DENOM` (R25). -/
def Config.denom (cfg : Config) : Nat :=
  match cfg.denomMode with
  | .resolution => 2 ^ cfg.r - 1
  | .sourceFixed => 2 ^ 12 - 1

/-- The configuration part of `construct` (R160): both validators, in its order. -/
def Config.create (r count : Nat) (mode : DenomMode) (bus : BusParameters) : Except ConfigurationError Config :=
  match Resolution.create r with
  | .error e => .error e
  | .ok res =>
    match ChannelCount.create count with
    | .error e => .error e
    | .ok ch => .ok ⟨res, ch, mode, bus⟩

/-- `ConfigValid(R, COUNT)` (R107): both validators succeed. -/
def configValid (r count : Nat) : Bool := (Resolution.create r).isOk && (ChannelCount.create count).isOk

/-- The table of supported configurations (R27), with the denominator mode of R25 and the bus parameters of R242. -/
def Model.config (m : Model) (mode : DenomMode) (bus : BusParameters) : Config :=
  match m with
  | .A => ⟨⟨10, by decide⟩, .two, mode, bus⟩
  | .B => ⟨⟨10, by decide⟩, .four, mode, bus⟩
  | .C => ⟨⟨10, by decide⟩, .eight, mode, bus⟩
  | .D => ⟨⟨12, by decide⟩, .two, mode, bus⟩
  | .E => ⟨⟨12, by decide⟩, .four, mode, bus⟩
  | .F => ⟨⟨12, by decide⟩, .eight, mode, bus⟩
  | .G => ⟨⟨13, by decide⟩, .four, mode, bus⟩
  | .H => ⟨⟨13, by decide⟩, .eight, mode, bus⟩

/-- The row of the table of R27 a configuration is, if it is one of the eight. -/
def Config.model? (cfg : Config) : Option Model :=
  match cfg.r, cfg.channels with
  | 10, .two => some .A
  | 10, .four => some .B
  | 10, .eight => some .C
  | 12, .two => some .D
  | 12, .four => some .E
  | 12, .eight => some .F
  | 13, .four => some .G
  | 13, .eight => some .H
  | _, _ => none

/-- The MODE bit (R62). -/
def Mode.bit : Mode → Nat
  | .differential => 0
  | .singleEnded => 1

end Sys2Proof
end

