-- ==== Sys2Proof/WellFormed.lean ====
section
/-! DEFINITION. The check an instruction must pass to stand for a word of its row of the opcode table. -/

namespace Sys2Proof

/-- Well-formed (R71, R72; the table's field notes): `ILLEGAL` holds only words that are neither `SE_READ` nor `DIFF_READ`;
a frame's ADDRESS is below its model's channel count ("channel index 0 to COUNT-1", and by R35 the same range for a pair
address), which a 3-bit field does not imply for the 4-channel models B, E and G. -/
def Instr.wellFormed : Instr → Bool
  | .seRead _ => true
  | .diffRead _ _ => true
  | .illegal op _ m => op != 2 && !(op == 1 && m == 0)
  | .seFrameA _ => true
  | .diffFrameA _ => true
  | .seFrameB a => decide (a.toNat < 4)
  | .diffFrameB a => decide (a.toNat < 4)
  | .seFrameC _ => true
  | .diffFrameC _ => true
  | .seFrameD _ => true
  | .diffFrameD _ => true
  | .seFrameE a => decide (a.toNat < 4)
  | .diffFrameE a => decide (a.toNat < 4)
  | .seFrameF _ => true
  | .diffFrameF _ => true
  | .seFrameG a => decide (a.toNat < 4)
  | .diffFrameG a => decide (a.toNat < 4)
  | .seFrameH _ => true
  | .diffFrameH _ => true

end Sys2Proof
end

