-- ==== Sys2Proof/Decode.lean ====
section
/-! DEFINITION. The decoders of the two ports, total on any word and rejecting by name, and the encoder. The request decoder
follows 30_encoding.md R70 to R72, the frame decoder the layout of R60 to R67; the encoder is written from the match patterns of
spec/opcode_table.json (R77), not from the frame formula, so that the round trip compares the two. -/

namespace Sys2Proof

/-- Why a frame is no instruction of this block. A request word is always one (`ILLEGAL` takes the rest of the 24-bit space). -/
inductive DecodeError where
  | frameLength (got : Nat)            -- not N bytes (R67)
  | startOrPad                         -- START is not 1, or a pad bit is not 0 (R61, R65)
  | lowFieldSet                        -- SAMPLE, NULL or DATA placeholder not 0 (R64)
  | addressNotEmitted (address : Nat)  -- an ADDRESS the block never emits (R35)
  | configurationNotInTable            -- a valid (R, COUNT) pair that has no row in the opcode table (R27, R77)
deriving DecidableEq, Repr

/-- `OP`, bits 23 to 16 (R70). -/
def requestOp (w : Req24) : Byte := w.extractLsb' 16 8

/-- `P`, bits 15 to 8 (R70). -/
def requestP (w : Req24) : Byte := w.extractLsb' 8 8

/-- `M`, bits 7 to 0 (R70). -/
def requestM (w : Req24) : Byte := w.extractLsb' 0 8

/-- The request decoder (R71, R72): every 24-bit word has one meaning. -/
def decodeRequest (w : Req24) : Instr :=
  if requestOp w = 1 ∧ requestM w = 0 then .seRead (requestP w)
  else if requestOp w = 2 then .diffRead (requestP w) (requestM w)
  else .illegal (requestOp w) (requestP w) (requestM w)

/-- The view of a frame instruction as its row's model, its MODE and its ADDRESS; `none` for a request. -/
def Instr.frameParts : Instr → Option (Model × Mode × Nat)
  | .seRead _ => none
  | .diffRead _ _ => none
  | .illegal _ _ _ => none
  | .seFrameA a => some (.A, .singleEnded, a.toNat)
  | .diffFrameA a => some (.A, .differential, a.toNat)
  | .seFrameB a => some (.B, .singleEnded, a.toNat)
  | .diffFrameB a => some (.B, .differential, a.toNat)
  | .seFrameC a => some (.C, .singleEnded, a.toNat)
  | .diffFrameC a => some (.C, .differential, a.toNat)
  | .seFrameD a => some (.D, .singleEnded, a.toNat)
  | .diffFrameD a => some (.D, .differential, a.toNat)
  | .seFrameE a => some (.E, .singleEnded, a.toNat)
  | .diffFrameE a => some (.E, .differential, a.toNat)
  | .seFrameF a => some (.F, .singleEnded, a.toNat)
  | .diffFrameF a => some (.F, .differential, a.toNat)
  | .seFrameG a => some (.G, .singleEnded, a.toNat)
  | .diffFrameG a => some (.G, .differential, a.toNat)
  | .seFrameH a => some (.H, .singleEnded, a.toNat)
  | .diffFrameH a => some (.H, .differential, a.toNat)

/-- The frame row of a model and a MODE, with its ADDRESS. -/
def frameInstr (m : Model) (mode : Mode) (addr : Nat) : Instr :=
  match m, mode with
  | .A, .singleEnded => .seFrameA (BitVec.ofNat 1 addr)
  | .A, .differential => .diffFrameA (BitVec.ofNat 1 addr)
  | .B, .singleEnded => .seFrameB (BitVec.ofNat 3 addr)
  | .B, .differential => .diffFrameB (BitVec.ofNat 3 addr)
  | .C, .singleEnded => .seFrameC (BitVec.ofNat 3 addr)
  | .C, .differential => .diffFrameC (BitVec.ofNat 3 addr)
  | .D, .singleEnded => .seFrameD (BitVec.ofNat 1 addr)
  | .D, .differential => .diffFrameD (BitVec.ofNat 1 addr)
  | .E, .singleEnded => .seFrameE (BitVec.ofNat 3 addr)
  | .E, .differential => .diffFrameE (BitVec.ofNat 3 addr)
  | .F, .singleEnded => .seFrameF (BitVec.ofNat 3 addr)
  | .F, .differential => .diffFrameF (BitVec.ofNat 3 addr)
  | .G, .singleEnded => .seFrameG (BitVec.ofNat 3 addr)
  | .G, .differential => .diffFrameG (BitVec.ofNat 3 addr)
  | .H, .singleEnded => .seFrameH (BitVec.ofNat 3 addr)
  | .H, .differential => .diffFrameH (BitVec.ofNat 3 addr)

/-- Bits 8N-1 down to T-1 of a frame: the pad bits and START (R60); 1 exactly when START is 1 and every pad bit is 0. -/
def frameTop (cfg : Config) (f : Nat) : Nat := f >>> (cfg.a + cfg.r + 3)

/-- MODE, bit A+R+2 (R62). -/
def frameMode (cfg : Config) (f : Nat) : Mode :=
  if field f (cfg.a + cfg.r + 2) 1 = 1 then .singleEnded else .differential

/-- ADDRESS, bits A+R+1 down to R+2 (R63). -/
def frameAddress (cfg : Config) (f : Nat) : Nat := field f (cfg.r + 2) cfg.a

/-- SAMPLE, bit R+1 (R60). -/
def frameSample (cfg : Config) (f : Nat) : Nat := field f (cfg.r + 1) 1

/-- NULL, bit R (R60). -/
def frameNull (cfg : Config) (f : Nat) : Nat := field f cfg.r 1

/-- The DATA window, bits R-1 down to 0 (R60, R64). -/
def frameData (cfg : Config) (f : Nat) : Nat := field f 0 cfg.r

/-- The frame decoder of a configuration (R60 to R67, R77). -/
def decodeFrame (cfg : Config) (bytes : List Byte) : Except DecodeError Instr :=
  if bytes.length ≠ cfg.n then .error (.frameLength bytes.length)
  else if frameTop cfg (assemble bytes) ≠ 1 then .error .startOrPad
  else if frameSample cfg (assemble bytes) ≠ 0 ∨ frameNull cfg (assemble bytes) ≠ 0 ∨ frameData cfg (assemble bytes) ≠ 0 then
    .error .lowFieldSet
  else if cfg.count ≤ frameAddress cfg (assemble bytes) then
    .error (.addressNotEmitted (frameAddress cfg (assemble bytes)))
  else
    match cfg.model? with
    | none => .error .configurationNotInTable
    | some m => .ok (frameInstr m (frameMode cfg (assemble bytes)) (frameAddress cfg (assemble bytes)))

/-- The decoder: a request word by the request decoder, a frame by the frame decoder of the block's configuration. -/
def decode (cfg : Config) : PortWord → Except DecodeError Instr
  | .request w => .ok (decodeRequest w)
  | .frame bytes => decodeFrame cfg bytes

/-- `REQ24` from its three fields (R70). -/
def requestWord (op p m : Byte) : Req24 := op ++ p ++ m

/-- A frame of `n` bytes from its row's match value and the place of its ADDRESS field (spec/opcode_table.json). -/
def tableFrame (n pattern shift addr : Nat) : PortWord := .frame (toBytes n (pattern + addr * 2 ^ shift))

/-- The encoder: the word of an instruction, from its row of the opcode table. -/
def encode : Instr → PortWord
  | .seRead p => .request (requestWord 1 p 0)
  | .diffRead p m => .request (requestWord 2 p m)
  | .illegal op p m => .request (requestWord op p m)
  | .seFrameA a => tableFrame 2 0x6000 12 a.toNat
  | .diffFrameA a => tableFrame 2 0x4000 12 a.toNat
  | .seFrameB a => tableFrame 3 0x018000 12 a.toNat
  | .diffFrameB a => tableFrame 3 0x010000 12 a.toNat
  | .seFrameC a => tableFrame 3 0x018000 12 a.toNat
  | .diffFrameC a => tableFrame 3 0x010000 12 a.toNat
  | .seFrameD a => tableFrame 3 0x018000 14 a.toNat
  | .diffFrameD a => tableFrame 3 0x010000 14 a.toNat
  | .seFrameE a => tableFrame 3 0x060000 14 a.toNat
  | .diffFrameE a => tableFrame 3 0x040000 14 a.toNat
  | .seFrameF a => tableFrame 3 0x060000 14 a.toNat
  | .diffFrameF a => tableFrame 3 0x040000 14 a.toNat
  | .seFrameG a => tableFrame 3 0x0C0000 15 a.toNat
  | .diffFrameG a => tableFrame 3 0x080000 15 a.toNat
  | .seFrameH a => tableFrame 3 0x0C0000 15 a.toNat
  | .diffFrameH a => tableFrame 3 0x080000 15 a.toNat

/-- The instruction read from a word numbered as spec/opcode_table.json numbers it. A 24-bit word is taken at the request port,
where every 24-bit word has one meaning (R70 to R72); a 16-bit word can only be a frame of model A, the one table row of two
bytes. The three-byte frame rows have the same bits as request words and as one another (B, C and D; E and F; G and H), so
bits alone do not select them: they are read at the frame port, by `decode cfg (.frame bytes)` (log entry 5). -/
def decodeTableWord (nbits w : Nat) : Option Instr :=
  if 2 ^ nbits ≤ w then none
  else if nbits = 24 then some (decodeRequest (BitVec.ofNat 24 w))
  else if nbits = 16 then (decodeFrame (Model.A.config .resolution .unstated) (toBytes 2 w)).toOption
  else none

end Sys2Proof
end

