-- ==== Sys2Proof/Machine/State.lean ====
section
/-! DEFINITION. The state of the block (10_state.md), the inputs and outputs of its two ports, and the state after reset.
All of it is plain data. `ε` is `PeriphErr`, the type of transport error values, an argument of the machine (00_scope.md R6). -/

namespace Sys2Proof.Machine

/-- `PHASE` (R30). -/
inductive Phase where
  | idle | waitXfer
deriving DecidableEq, Repr

/-- A validated channel index, 0 to 7 (R104). -/
abbrev Channel := Fin 8

/-- The errors a request can end in before a `Transfer` is issued (R201, R202, R203, R206), with their payloads. -/
inductive RequestError where
  | invalidChannelNumber (index : Byte)
  | unsupportedChannel (channel : Channel)
  | unsupportedDifferentialCombination (plus minus : Channel)
  | illegalRequest (op m : Byte)
deriving DecidableEq, Repr

/-- The framing error of the response decoder (R141, R205): it carries nothing. -/
inductive FramingError where
  | bitsAboveData
deriving DecidableEq, Repr

/-- A `Reading` (R142). -/
structure Reading where
  value : Nat
  range : Nat
deriving DecidableEq, Repr

/-- The response status (R200). Code 7 is reserved and has no constructor (R74). -/
inductive Status where
  | ok
  | invalidChannelNumber
  | unsupportedChannel
  | unsupportedDifferentialCombination
  | peripheral
  | framing
  | illegalRequest
deriving DecidableEq, Repr

/-- The response record `RSP` (R33, R73). -/
structure Response (ε : Type) where
  status : Status
  value  : Nat
  range  : Nat
  denom  : Nat
  errA   : Byte
  errB   : Byte
  periph : Option ε
deriving DecidableEq, Repr

/-- The transport's answer to a `Transfer` (R41). Which one it gives is free: it is an input. -/
inductive Answer (ε : Type) where
  | ok (rx : List Byte)
  | err (e : ε)
deriving DecidableEq, Repr

/-- What the outside does to the block, in the order it does it (43_device_operations.md, agents; 70_reset_and_hazards.md R240). -/
inductive Input (ε : Type) where
  | present (w : PortWord)     -- a word presented at a port, held there until the block is idle (R161, R167)
  | answer (a : Answer ε)        -- the transport answers the `Transfer` in flight (R164)
  | lateAnswer (a : Answer ε)    -- the transport answers a `Transfer` that a reset abandoned (R241)
  | reset                      -- reset (R240, R241)
deriving DecidableEq, Repr

/-- What the block does that the outside can see (R170): a `Transfer` issued, a response emitted. -/
inductive Output (ε : Type) where
  | transfer (tx : List Byte)
  | response (r : Response ε)
deriving DecidableEq, Repr

/-- The state of the machine, all that its steps change: `phase`, `txbuf` and `rxbuf` are the transaction state of R30 to R32.
`inputs`, `outputs` and `freeDraws` are the model's own (log entries 2 and 3): what the outside does next, what the block has sent
(R33, R170), and how many free bytes have been drawn. The parameters of R6 are no part of it: the configuration is an argument
of every operation, and `ε` of the type. -/
structure Block (ε : Type) where
  phase     : Phase
  txbuf     : List Byte
  rxbuf     : List Byte
  inputs    : List (Input ε)     -- first to happen first
  outputs   : List (Output ε)    -- newest first
  freeDraws : Nat
deriving DecidableEq, Repr

/-- The argument the host's interface gives for `PeriphErr`: error values named by numbers (log entry 6). The machine itself takes
any type. -/
structure PeriphErr where
  code : Nat
deriving DecidableEq, Repr

/-- The machine's state together with the machine's arguments: the host's interface has one step of ONE argument, so what it calls
the state carries the configuration (the constants of R20 to R25) beside the `Block`. No operation sees a `State`: each takes a
configuration and a `Block` and gives a `Block`, and `State.onBlock` puts the same configuration back (log entry 1). -/
structure State extends Block PeriphErr where
  cfg : Config
deriving DecidableEq, Repr

/-- A block with the configuration it is built for, in the host's interface. -/
def Block.configured (cfg : Config) (b : Block PeriphErr) : State := { toBlock := b, cfg := cfg }

/-- The block has no trap and nothing of it stops (R209: "No trap mechanism"; every error is a response), so a fault has no
constructor: nobody raises one, and a step that faults cannot be written. -/
inductive Fault where
deriving DecidableEq, Repr

/-- Why the model gives no step. Each names something outside the block's own behaviour. -/
inductive Refusal where
  /-- Raised by `exec` for an instruction that has no meaning yet; none is left. Safe: the run ends. -/
  | notModelled (mnemonic : String)
  /-- Raised by the completion step for an `Ok` answer that is not N bytes (R41: it "cannot occur"; 93_implementation_defined.md:
  `refuse`). Safe: the run ends where the spec has no machine. -/
  | answerLength (got expected : Nat)
  /-- Raised by a step whose presented frame is no frame this block emits (R35, R72). Safe: the run ends where the spec has none. -/
  | frameRejected (why : DecodeError)
  /-- Raised by a frame's meaning when the block is not built for that frame's model (R67, R77), or when the ADDRESS is one the
  block never emits (R35). Safe: no run of the block holds such a frame. -/
  | frameNotEmitted (model : Model) (address : Nat)
deriving DecidableEq, Repr

/-- The outcome of an instruction or a step of the machine. -/
abbrev BlockResult (ε : Type) := Host.Outcome (Block ε) Fault Refusal

/-- The outcome of an instruction or a step in the host's interface. -/
abbrev Result := Host.Outcome State Fault Refusal

/-- The block after reset (R38, R240) when built for a configuration: idle, no response, no input yet. The buffers are
unspecified and unobservable after reset; the model names N zero bytes (log entry 3). -/
def Block.resetFor {ε : Type} (cfg : Config) : Block ε where
  phase := .idle
  txbuf := List.replicate cfg.n 0
  rxbuf := List.replicate cfg.n 0
  inputs := []
  outputs := []
  freeDraws := 0

/-- The block just built and reset for a configuration (R38, R160, R240), with that configuration. -/
def State.resetFor (cfg : Config) : State := (Block.resetFor cfg).configured cfg

/-- `construct` (R160): validate the pair, then reset; an invalid pair gives no block (R207). -/
def State.construct (r count : Nat) (mode : DenomMode) (bus : BusParameters) : Except ConfigurationError State :=
  (Config.create r count mode bus).map State.resetFor

/-- The state after reset. The interface asks for ONE state, so it names one configuration: model A, the first row of the table
of R27, with the default denominator and no stated bus parameters (log entry 1). `coreFor` is the machine of every configuration. -/
def State.reset : State := State.resetFor (Model.A.config .resolution .unstated)

end Sys2Proof.Machine
end

