-- ==== Sys2Proof/Machine/Operands.lean ====
section
/-! DEFINITION. The request-time validators: the operand checks of a read (40_validation.md R104 to R106), each with its error. -/

namespace Sys2Proof.Machine

/-- `Channel.create(index)` (R104): independent of the device. -/
def Channel.create (index : Byte) : Except RequestError Channel :=
  if h : index.toNat < 8 then .ok ⟨index.toNat, h⟩ else .error (.invalidChannelNumber index)

/-- `CheckSupported(ch)` (R105). -/
def checkSupported (cfg : Config) (ch : Channel) : Except RequestError Channel :=
  if cfg.count ≤ ch.val then .error (.unsupportedChannel ch) else .ok ch

/-- `PairAddr(plus, minus)` (R106): the pairing table. -/
def pairAddr (plus minus : Channel) : Except RequestError Nat :=
  match plus.val, minus.val with
  | 0, 1 => .ok 0
  | 1, 0 => .ok 1
  | 2, 3 => .ok 2
  | 3, 2 => .ok 3
  | 4, 5 => .ok 4
  | 5, 4 => .ok 5
  | 6, 7 => .ok 6
  | 7, 6 => .ok 7
  | _, _ => .error (.unsupportedDifferentialCombination plus minus)

end Sys2Proof.Machine
end

