-- ==== Sys2Proof/Machine/Encoder.lean ====
section
/-! DEFINITION. The command encoder (41_command_encoder.md R120 to R123). -/

namespace Sys2Proof.Machine

/-- `EncodeFrame(m, addr)` (R66, R120). -/
def encodeFrame (cfg : Config) (mode : Mode) (addr : Nat) : Nat :=
  (1 <<< (cfg.a + cfg.r + 3)) ||| (mode.bit <<< (cfg.a + cfg.r + 2)) ||| (addr <<< (cfg.r + 2))

/-- `Serialize(F)` (R42, R121): N bytes, most significant first. -/
def serialize (cfg : Config) (f : Nat) : List Byte := toBytes cfg.n f

/-- `EncodeSE(ch)` (R122). -/
def encodeSE (cfg : Config) (ch : Channel) : List Byte := serialize cfg (encodeFrame cfg .singleEnded ch.val)

/-- `EncodeDiff(plus, minus)` (R123): the one error raised inside encoding. -/
def encodeDiff (cfg : Config) (plus minus : Channel) : Except RequestError (List Byte) :=
  match pairAddr plus minus with
  | .error e => .error e
  | .ok addr => .ok (serialize cfg (encodeFrame cfg .differential addr))

/-- The checks and the encoding of `SE_READ` in the order of R162 and R208. -/
def singleEndedCommand (cfg : Config) (p : Byte) : Except RequestError (List Byte) := do
  let ch ← Channel.create p
  let ch ← checkSupported cfg ch
  return encodeSE cfg ch

/-- The checks and the encoding of `DIFF_READ` in the order of R163 and R208. -/
def differentialCommand (cfg : Config) (p m : Byte) : Except RequestError (List Byte) := do
  let cp ← Channel.create p
  let cm ← Channel.create m
  let cp ← checkSupported cfg cp
  let cm ← checkSupported cfg cm
  encodeDiff cfg cp cm

end Sys2Proof.Machine
end

