-- ==== Sys2Proof/Machine/Decoder.lean ====
section
/-! DEFINITION. The response decoder and the Reading (42_response_decoder.md R140 to R147). `Assemble` stands in Bits.lean. -/

namespace Sys2Proof.Machine

/-- `FramingCheck(Rx)` (R141): no bit at position R or above. -/
def framingCheck (cfg : Config) (rx : Nat) : Except FramingError Nat :=
  if 2 ^ cfg.r ≤ rx then .error .bitsAboveData else .ok rx

/-- `MakeReading(v)` (R142). -/
def makeReading (cfg : Config) (v : Nat) : Reading := { value := v, range := 2 ^ cfg.r - 1 }

/-- `Decode(rx)` (R147). -/
def decodeAnswer (cfg : Config) (rx : List Byte) : Except FramingError Reading :=
  (framingCheck cfg (assemble rx)).map (makeReading cfg)

/-- `Reading.as_fraction()` as the block gives it: numerator and denominator (R146). -/
def Reading.asFraction (cfg : Config) (rd : Reading) : Nat × Nat := (rd.value, cfg.denom)

/-- The number that pair stands for: the exact rational, with no rounding (R146). -/
def Reading.fraction (cfg : Config) (rd : Reading) : Rat :=
  ((rd.asFraction cfg).1 : Rat) / ((rd.asFraction cfg).2 : Rat)

end Sys2Proof.Machine
end

