-- ==== Sys2Proof/Machine/Flags.lean ====
section
/-! DEFINITION. The response: the block's only status (10_state.md R34: it has no flags). The status codes
(60_exceptions.md R200), the response of each outcome, and the response word `RSP64` (30_encoding.md R73). -/

namespace Sys2Proof.Machine

variable {ε : Type}

/-- The status codes (R200). -/
def Status.code : Status → Nat
  | .ok => 0
  | .invalidChannelNumber => 1
  | .unsupportedChannel => 2
  | .unsupportedDifferentialCombination => 3
  | .peripheral => 4
  | .framing => 5
  | .illegalRequest => 6

/-- The status of a code; 7 is reserved (R74). -/
def Status.ofCode : Nat → Option Status
  | 0 => some .ok
  | 1 => some .invalidChannelNumber
  | 2 => some .unsupportedChannel
  | 3 => some .unsupportedDifferentialCombination
  | 4 => some .peripheral
  | 5 => some .framing
  | 6 => some .illegalRequest
  | _ => none

/-- Whether a transaction that ends in this status issued a `Transfer` (R200, last column). -/
def Status.transferIssued : Status → Bool
  | .ok => true
  | .invalidChannelNumber => false
  | .unsupportedChannel => false
  | .unsupportedDifferentialCombination => false
  | .peripheral => true
  | .framing => true
  | .illegalRequest => false

/-- A response with only a status and error payloads: the fields not named are 0 (R9, R200). -/
def Response.error (status : Status) (errA errB : Byte) : Response ε :=
  { status := status, value := 0, range := 0, denom := 0, errA := errA, errB := errB, periph := none }

/-- The response of a request error (R201, R202, R203, R206). -/
def RequestError.response : RequestError → Response ε
  | .invalidChannelNumber i => .error .invalidChannelNumber i 0
  | .unsupportedChannel ch => .error .unsupportedChannel (BitVec.ofNat 8 ch.val) 0
  | .unsupportedDifferentialCombination p m =>
    .error .unsupportedDifferentialCombination (BitVec.ofNat 8 p.val) (BitVec.ofNat 8 m.val)
  | .illegalRequest op m => .error .illegalRequest op m

/-- The response of a transport error: the error value unchanged (R165, R204). -/
def peripheralResponse (e : ε) : Response ε := { (Response.error .peripheral 0 0 : Response ε) with periph := some e }

/-- The response of a Reading (R164). -/
def readingResponse (cfg : Config) (rd : Reading) : Response ε :=
  { status := .ok, value := rd.value, range := rd.range, denom := cfg.denom, errA := 0, errB := 0, periph := none }

/-- The response of an `Ok` answer's bytes (R164, R205). -/
def answerResponse (cfg : Config) (rx : List Byte) : Response ε :=
  match decodeAnswer cfg rx with
  | .error _ => .error .framing 0 0
  | .ok rd => readingResponse cfg rd

/-- The Reading a response holds: one only when its status is `OK` (R33). -/
def Response.reading? (r : Response ε) : Option Reading :=
  match r.status with
  | .ok => some { value := r.value, range := r.range }
  | .invalidChannelNumber => none
  | .unsupportedChannel => none
  | .unsupportedDifferentialCombination => none
  | .peripheral => none
  | .framing => none
  | .illegalRequest => none

/-- `RSP64` (R73): status 63..61, value 60..46, range 45..31, denom 30..16, err_a 15..8, err_b 7..0. -/
def Response.word (r : Response ε) : Rsp64 :=
  BitVec.ofNat 3 r.status.code ++ BitVec.ofNat 15 r.value ++ BitVec.ofNat 15 r.range ++ BitVec.ofNat 15 r.denom ++ r.errA ++ r.errB

/-- The response read back from its word and its side field `periph`; none where the word has the reserved status 7 (R74). -/
def Response.ofWord (w : Rsp64) (periph : Option ε) : Option (Response ε) :=
  (Status.ofCode (w.extractLsb' 61 3).toNat).map fun status =>
    { status := status
      value := (w.extractLsb' 46 15).toNat
      range := (w.extractLsb' 31 15).toNat
      denom := (w.extractLsb' 16 15).toNat
      errA := w.extractLsb' 8 8
      errB := w.extractLsb' 0 8
      periph := periph }

end Sys2Proof.Machine
end

