-- ==== Sys2Proof/Machine/Ops.lean ====
section
/-! DEFINITION. The shared operations of the machine: issuing a `Transfer`, emitting a response, ending a transaction in an error,
the accept and completion steps, reset. Each takes the configuration as an argument, where it reads it, and never writes it (R6,
R26). The block has no memory (R40), no trap entry and no trap return (R209, R210): ending a transaction in an error response
(`Block.raise`) is its one way to take an error. -/

namespace Sys2Proof.Machine

variable {ε : Type}

/-- `respond` (R9): one response leaves on the response port. -/
def Block.respond (r : Response ε) (b : Block ε) : Block ε := { b with outputs := .response r :: b.outputs }

/-- `raise` (R9, R209): the transaction ends in its error response; no `Transfer`, `PHASE` stays `IDLE`. -/
def Block.raise (e : RequestError) (b : Block ε) : Block ε := b.respond e.response

/-- The end of a successful accept step (R162, R163): `TXBUF` written, the `Transfer` issued, `PHASE` to `WAIT_XFER`. -/
def Block.issue (tx : List Byte) (b : Block ε) : Block ε :=
  { b with txbuf := tx, phase := .waitXfer, outputs := .transfer tx :: b.outputs }

/-- Acceptance (R161, R167): a request is accepted only in `IDLE`; in `WAIT_XFER` it is held, and nothing changes. -/
def Block.whenIdle (b : Block ε) (k : Block ε → BlockResult ε) : BlockResult ε :=
  match b.phase with
  | .idle => k b
  | .waitXfer => .next b

/-- The accept step of a request whose checks and encoding gave `command` (R162, R163). -/
def Block.accept (command : Except RequestError (List Byte)) (b : Block ε) : BlockResult ε :=
  match command with
  | .error e => .next (b.raise e)
  | .ok tx => .next (b.issue tx)

/-- The emission of a command frame (R60, R66): the accept step's last three actions, for a block built for `model` and an
ADDRESS it can emit (R35). Any other frame is none of this block's. -/
def Block.emitFrame (cfg : Config) (model : Model) (mode : Mode) (addr : Nat) (b : Block ε) : BlockResult ε :=
  if cfg.model? = some model ∧ addr < cfg.count then
    b.accept (.ok (serialize cfg (encodeFrame cfg mode addr)))
  else .refused (.frameNotEmitted model addr)

/-- A response that ends the transaction in flight: `PHASE` back to `IDLE` (R164). -/
def Block.finish (r : Response ε) (b : Block ε) : Block ε := { b.respond r with phase := .idle }

/-- The completion step (R164, R165). An `Ok` answer of another length than N is outside the model (R41). -/
def Block.complete (cfg : Config) (a : Answer ε) (b : Block ε) : BlockResult ε :=
  match a with
  | .err e => .next (b.finish (peripheralResponse e))
  | .ok rx =>
    if rx.length = cfg.n then .next ({ b with rxbuf := rx }.finish (answerResponse cfg rx))
    else .refused (.answerLength rx.length cfg.n)

/-- `n` free bytes, from draw `k` on. -/
def freeBytes (k : Nat) : Nat → List Byte
  | 0 => []
  | n + 1 => Config.freeByte k :: freeBytes (k + 1) n

/-- A reset of the running block (R240, R241): idle, both buffers unspecified (free values), no response and no `Transfer`; a
transaction in flight is abandoned. -/
def Block.resetRunning (cfg : Config) (b : Block ε) : Block ε :=
  { b with
    phase := .idle
    txbuf := freeBytes b.freeDraws cfg.n
    rxbuf := freeBytes (b.freeDraws + cfg.n) cfg.n
    freeDraws := b.freeDraws + 2 * cfg.n }

/-- The block with other inputs. -/
def Block.withInputs (b : Block ε) (inputs : List (Input ε)) : Block ε := { b with inputs := inputs }

/-- What a run shows, oldest first (R170). -/
def Block.observation (b : Block ε) : List (Output ε) := b.outputs.reverse

/-- An outcome with its next state seen another way; a fault or a refusal stays as it is. -/
def mapNext {σ τ φ ρ : Type} (f : σ → τ) : Host.Outcome σ φ ρ → Host.Outcome τ φ ρ
  | .next s => .next (f s)
  | .fault r => .fault r
  | .refused r => .refused r

/-- An operation of the machine in the host's interface: it is given the configuration of the state, and the same configuration
stands beside what it gives. -/
def State.onBlock (operation : Config → Block PeriphErr → BlockResult PeriphErr) (s : State) : Result :=
  mapNext (Block.configured s.cfg) (operation s.cfg s.toBlock)

end Sys2Proof.Machine
end

