-- ==== Sys2Proof/Machine/Frames.lean ====
section
/-! DEFINITION. The meanings of the command frames (30_encoding.md R60 to R67, R77; 41_command_encoder.md R122, R123): the frame
is emitted on the transport, as the last part of the accept step that gives it. One definition for each row of the opcode table, of
the machine with its arguments (`Block.…`), and the same in the host's interface (`exec…`). -/

namespace Sys2Proof.Machine

variable {ε : Type}

/-- `SE_FRAME_A` (R122). -/
def Block.seFrameA (cfg : Config) (a : BitVec 1) (b : Block ε) : BlockResult ε :=
  b.whenIdle (Block.emitFrame cfg .A .singleEnded a.toNat)

/-- `SE_FRAME_A` in the host's interface. -/
def execSeFrameA (a : BitVec 1) (s : State) : Result := s.onBlock fun cfg => Block.seFrameA cfg a

/-- `DIFF_FRAME_A` (R123). -/
def Block.diffFrameA (cfg : Config) (a : BitVec 1) (b : Block ε) : BlockResult ε :=
  b.whenIdle (Block.emitFrame cfg .A .differential a.toNat)

/-- `DIFF_FRAME_A` in the host's interface. -/
def execDiffFrameA (a : BitVec 1) (s : State) : Result := s.onBlock fun cfg => Block.diffFrameA cfg a

/-- `SE_FRAME_B` (R122). -/
def Block.seFrameB (cfg : Config) (a : BitVec 3) (b : Block ε) : BlockResult ε :=
  b.whenIdle (Block.emitFrame cfg .B .singleEnded a.toNat)

/-- `SE_FRAME_B` in the host's interface. -/
def execSeFrameB (a : BitVec 3) (s : State) : Result := s.onBlock fun cfg => Block.seFrameB cfg a

/-- `DIFF_FRAME_B` (R123). -/
def Block.diffFrameB (cfg : Config) (a : BitVec 3) (b : Block ε) : BlockResult ε :=
  b.whenIdle (Block.emitFrame cfg .B .differential a.toNat)

/-- `DIFF_FRAME_B` in the host's interface. -/
def execDiffFrameB (a : BitVec 3) (s : State) : Result := s.onBlock fun cfg => Block.diffFrameB cfg a

/-- `SE_FRAME_C` (R122). -/
def Block.seFrameC (cfg : Config) (a : BitVec 3) (b : Block ε) : BlockResult ε :=
  b.whenIdle (Block.emitFrame cfg .C .singleEnded a.toNat)

/-- `SE_FRAME_C` in the host's interface. -/
def execSeFrameC (a : BitVec 3) (s : State) : Result := s.onBlock fun cfg => Block.seFrameC cfg a

/-- `DIFF_FRAME_C` (R123). -/
def Block.diffFrameC (cfg : Config) (a : BitVec 3) (b : Block ε) : BlockResult ε :=
  b.whenIdle (Block.emitFrame cfg .C .differential a.toNat)

/-- `DIFF_FRAME_C` in the host's interface. -/
def execDiffFrameC (a : BitVec 3) (s : State) : Result := s.onBlock fun cfg => Block.diffFrameC cfg a

/-- `SE_FRAME_D` (R122). -/
def Block.seFrameD (cfg : Config) (a : BitVec 1) (b : Block ε) : BlockResult ε :=
  b.whenIdle (Block.emitFrame cfg .D .singleEnded a.toNat)

/-- `SE_FRAME_D` in the host's interface. -/
def execSeFrameD (a : BitVec 1) (s : State) : Result := s.onBlock fun cfg => Block.seFrameD cfg a

/-- `DIFF_FRAME_D` (R123). -/
def Block.diffFrameD (cfg : Config) (a : BitVec 1) (b : Block ε) : BlockResult ε :=
  b.whenIdle (Block.emitFrame cfg .D .differential a.toNat)

/-- `DIFF_FRAME_D` in the host's interface. -/
def execDiffFrameD (a : BitVec 1) (s : State) : Result := s.onBlock fun cfg => Block.diffFrameD cfg a

/-- `SE_FRAME_E` (R122). -/
def Block.seFrameE (cfg : Config) (a : BitVec 3) (b : Block ε) : BlockResult ε :=
  b.whenIdle (Block.emitFrame cfg .E .singleEnded a.toNat)

/-- `SE_FRAME_E` in the host's interface. -/
def execSeFrameE (a : BitVec 3) (s : State) : Result := s.onBlock fun cfg => Block.seFrameE cfg a

/-- `DIFF_FRAME_E` (R123). -/
def Block.diffFrameE (cfg : Config) (a : BitVec 3) (b : Block ε) : BlockResult ε :=
  b.whenIdle (Block.emitFrame cfg .E .differential a.toNat)

/-- `DIFF_FRAME_E` in the host's interface. -/
def execDiffFrameE (a : BitVec 3) (s : State) : Result := s.onBlock fun cfg => Block.diffFrameE cfg a

/-- `SE_FRAME_F` (R122). -/
def Block.seFrameF (cfg : Config) (a : BitVec 3) (b : Block ε) : BlockResult ε :=
  b.whenIdle (Block.emitFrame cfg .F .singleEnded a.toNat)

/-- `SE_FRAME_F` in the host's interface. -/
def execSeFrameF (a : BitVec 3) (s : State) : Result := s.onBlock fun cfg => Block.seFrameF cfg a

/-- `DIFF_FRAME_F` (R123). -/
def Block.diffFrameF (cfg : Config) (a : BitVec 3) (b : Block ε) : BlockResult ε :=
  b.whenIdle (Block.emitFrame cfg .F .differential a.toNat)

/-- `DIFF_FRAME_F` in the host's interface. -/
def execDiffFrameF (a : BitVec 3) (s : State) : Result := s.onBlock fun cfg => Block.diffFrameF cfg a

/-- `SE_FRAME_G` (R122). -/
def Block.seFrameG (cfg : Config) (a : BitVec 3) (b : Block ε) : BlockResult ε :=
  b.whenIdle (Block.emitFrame cfg .G .singleEnded a.toNat)

/-- `SE_FRAME_G` in the host's interface. -/
def execSeFrameG (a : BitVec 3) (s : State) : Result := s.onBlock fun cfg => Block.seFrameG cfg a

/-- `DIFF_FRAME_G` (R123). -/
def Block.diffFrameG (cfg : Config) (a : BitVec 3) (b : Block ε) : BlockResult ε :=
  b.whenIdle (Block.emitFrame cfg .G .differential a.toNat)

/-- `DIFF_FRAME_G` in the host's interface. -/
def execDiffFrameG (a : BitVec 3) (s : State) : Result := s.onBlock fun cfg => Block.diffFrameG cfg a

/-- `SE_FRAME_H` (R122). -/
def Block.seFrameH (cfg : Config) (a : BitVec 3) (b : Block ε) : BlockResult ε :=
  b.whenIdle (Block.emitFrame cfg .H .singleEnded a.toNat)

/-- `SE_FRAME_H` in the host's interface. -/
def execSeFrameH (a : BitVec 3) (s : State) : Result := s.onBlock fun cfg => Block.seFrameH cfg a

/-- `DIFF_FRAME_H` (R123). -/
def Block.diffFrameH (cfg : Config) (a : BitVec 3) (b : Block ε) : BlockResult ε :=
  b.whenIdle (Block.emitFrame cfg .H .differential a.toNat)

/-- `DIFF_FRAME_H` in the host's interface. -/
def execDiffFrameH (a : BitVec 3) (s : State) : Result := s.onBlock fun cfg => Block.diffFrameH cfg a

end Sys2Proof.Machine
end

