-- ==== Sys2Proof/Machine/Requests.lean ====
section
/-! DEFINITION. The meanings of the request words (43_device_operations.md R161 to R163, 30_encoding.md R72): of the machine with
its arguments (`Block.…`), and the same in the host's interface (`exec…`). -/

namespace Sys2Proof.Machine

variable {ε : Type}

/-- `SE_READ p` (R162). -/
def Block.seRead (cfg : Config) (p : Byte) (b : Block ε) : BlockResult ε :=
  b.whenIdle (Block.accept (singleEndedCommand cfg p))

/-- `DIFF_READ p, m` (R163). -/
def Block.diffRead (cfg : Config) (p m : Byte) (b : Block ε) : BlockResult ε :=
  b.whenIdle (Block.accept (differentialCommand cfg p m))

/-- An illegal request word (R72, R206): answered `ILLEGAL_REQUEST` with `OP` and `M`; `P` plays no part. -/
def Block.illegal (op _p m : Byte) (b : Block ε) : BlockResult ε :=
  b.whenIdle (Block.accept (.error (.illegalRequest op m)))

/-- `SE_READ` in the host's interface. -/
def execSeRead (p : Byte) (s : State) : Result := s.onBlock fun cfg => Block.seRead cfg p

/-- `DIFF_READ` in the host's interface. -/
def execDiffRead (p m : Byte) (s : State) : Result := s.onBlock fun cfg => Block.diffRead cfg p m

/-- `ILLEGAL` in the host's interface. -/
def execIllegal (op p m : Byte) (s : State) : Result := s.onBlock fun _ => Block.illegal op p m

end Sys2Proof.Machine
end

