-- ==== Sys2Proof/Machine/Dispatch.lean ====
section
/-! DEFINITION. The dispatch: one arm for each constructor of Instr, each one direct call of its meaning. -/

namespace Sys2Proof.Machine

def exec (i : Instr) (s : State) : Host.Outcome State Fault Refusal :=
  match i with
  | .seRead p => Sys2Proof.Machine.execSeRead p s
  | .diffRead p m => Sys2Proof.Machine.execDiffRead p m s
  | .illegal op p m => Sys2Proof.Machine.execIllegal op p m s
  | .seFrameA a => Sys2Proof.Machine.execSeFrameA a s
  | .diffFrameA a => Sys2Proof.Machine.execDiffFrameA a s
  | .seFrameB a => Sys2Proof.Machine.execSeFrameB a s
  | .diffFrameB a => Sys2Proof.Machine.execDiffFrameB a s
  | .seFrameC a => Sys2Proof.Machine.execSeFrameC a s
  | .diffFrameC a => Sys2Proof.Machine.execDiffFrameC a s
  | .seFrameD a => Sys2Proof.Machine.execSeFrameD a s
  | .diffFrameD a => Sys2Proof.Machine.execDiffFrameD a s
  | .seFrameE a => Sys2Proof.Machine.execSeFrameE a s
  | .diffFrameE a => Sys2Proof.Machine.execDiffFrameE a s
  | .seFrameF a => Sys2Proof.Machine.execSeFrameF a s
  | .diffFrameF a => Sys2Proof.Machine.execDiffFrameF a s
  | .seFrameG a => Sys2Proof.Machine.execSeFrameG a s
  | .diffFrameG a => Sys2Proof.Machine.execDiffFrameG a s
  | .seFrameH a => Sys2Proof.Machine.execSeFrameH a s
  | .diffFrameH a => Sys2Proof.Machine.execDiffFrameH a s

end Sys2Proof.Machine
end

