-- ==== Sys2Proof/Machine/Instructions.lean ====
section
/-! DEFINITION. The instruction of the machine with its arguments: one arm for each constructor of Instr. Dispatch.lean is the same
table in the host's interface, over the same meanings. -/

namespace Sys2Proof.Machine

def Block.exec {ε : Type} (cfg : Config) (i : Instr) (b : Block ε) : BlockResult ε :=
  match i with
  | .seRead p => b.seRead cfg p
  | .diffRead p m => b.diffRead cfg p m
  | .illegal op p m => b.illegal op p m
  | .seFrameA a => b.seFrameA cfg a
  | .diffFrameA a => b.diffFrameA cfg a
  | .seFrameB a => b.seFrameB cfg a
  | .diffFrameB a => b.diffFrameB cfg a
  | .seFrameC a => b.seFrameC cfg a
  | .diffFrameC a => b.diffFrameC cfg a
  | .seFrameD a => b.seFrameD cfg a
  | .diffFrameD a => b.diffFrameD cfg a
  | .seFrameE a => b.seFrameE cfg a
  | .diffFrameE a => b.diffFrameE cfg a
  | .seFrameF a => b.seFrameF cfg a
  | .diffFrameF a => b.diffFrameF cfg a
  | .seFrameG a => b.seFrameG cfg a
  | .diffFrameG a => b.diffFrameG cfg a
  | .seFrameH a => b.seFrameH cfg a
  | .diffFrameH a => b.diffFrameH cfg a

end Sys2Proof.Machine
end

