-- ==== Sys2Proof/Machine/Port.lean ====
section
/-! DEFINITION. The sequencer: which of its two steps the block takes, given its phase and what the outside does
(43_device_operations.md R161, R164, R167, R168, R170; 70_reset_and_hazards.md R241). -/

namespace Sys2Proof.Machine

variable {ε : Type}

/-- What the block does next, with the inputs left after it. -/
inductive Action (ε : Type) where
  | stay                                        -- no step is enabled
  | accept (w : PortWord) (rest : List (Input ε))   -- a word is taken from a port
  | complete (a : Answer ε) (rest : List (Input ε))   -- the answer to the `Transfer` in flight is taken
  | ignore (rest : List (Input ε))                  -- an answer to no `Transfer` in flight passes, not decoded
  | reset (rest : List (Input ε))
deriving DecidableEq, Repr

/-- The words held in front of the inputs stay there (R167: "neither dropped nor answered early"). -/
def Action.holding (w : PortWord) : Action ε → Action ε
  | .stay => .stay
  | .accept w' rest => .accept w' (.present w :: rest)
  | .complete a rest => .complete a (.present w :: rest)
  | .ignore rest => .ignore (.present w :: rest)
  | .reset rest => .reset (.present w :: rest)

/-- In `IDLE` the next input is taken. An answer then belongs to no `Transfer` in flight (R164 is enabled only in `WAIT_XFER`;
R241: it "is not decoded"). -/
def idleAction : List (Input ε) → Action ε
  | [] => .stay
  | .present w :: rest => .accept w rest
  | .answer _ :: rest => .ignore rest
  | .lateAnswer _ :: rest => .ignore rest
  | .reset :: rest => .reset rest

/-- In `WAIT_XFER` the presented words are held, and the first other input is taken; if there is none the block waits (R168). -/
def waitAction : List (Input ε) → Action ε
  | [] => .stay
  | .present w :: rest => (waitAction rest).holding w
  | .answer a :: rest => .complete a rest
  | .lateAnswer _ :: rest => .ignore rest
  | .reset :: rest => .reset rest

/-- The next action of a block. -/
def Block.nextAction (b : Block ε) : Action ε :=
  match b.phase with
  | .idle => idleAction b.inputs
  | .waitXfer => waitAction b.inputs

/-- A word taken from a port is decoded and run (R161). -/
def Block.runWord (cfg : Config) (w : PortWord) (b : Block ε) : BlockResult ε :=
  match decode cfg w with
  | .ok i => b.exec cfg i
  | .error e => .refused (.frameRejected e)

/-- An action carried out. -/
def Block.perform (cfg : Config) (b : Block ε) : Action ε → BlockResult ε
  | .stay => .next b
  | .accept w rest => (b.withInputs rest).runWord cfg w
  | .complete a rest => (b.withInputs rest).complete cfg a
  | .ignore rest => .next (b.withInputs rest)
  | .reset rest => .next ((b.withInputs rest).resetRunning cfg)

/-- One step of the machine (R170): an accept step, a completion step, a reset, or nothing where nothing is enabled. The
configuration and the type of the transport error values are arguments (R6). -/
def stepFor (cfg : Config) (b : Block ε) : BlockResult ε := b.perform cfg b.nextAction

/-- The word of an opcode-table row, at the port its length belongs to (see `decodeTableWord`). -/
def tablePortWord (nbits w : Nat) : PortWord :=
  if nbits = 16 then .frame (toBytes 2 w) else .request (BitVec.ofNat 24 w)

end Sys2Proof.Machine
end

