-- ==== Sys2Proof/Machine/Step.lean ====
section
/-! DEFINITION. One step in the host's interface (43_device_operations.md R170), and where the next instruction is taken from. -/

namespace Sys2Proof.Machine

/-- One step: `stepFor` in the host's interface. -/
def step (s : State) : Host.Outcome State Fault Refusal := s.onBlock stepFor

/-- The state in which the very next step runs the instruction of an opcode-table word: the block is idle and the word stands
first at its port. The configuration stays as it is (R26): a 16-bit word is a frame of model A, so it runs on a block built for
model A, which `State.reset` is (log entries 1 and 5). -/
def State.withFetchWord (s : State) (nbits w : Nat) : State :=
  { s with
    phase := .idle
    inputs := .present (tablePortWord nbits w) :: s.inputs }

end Sys2Proof.Machine
end

