-- ==== Sys2Proof/Machine/Asm.lean ====
section
/-! DEFINITION. The test-program syntax of 30_encoding.md R76 as data: a line, and the inputs a program stands for. A
program is the caller's requests and the transport's answers in order; it is loaded from outside (log entry 2). -/

namespace Sys2Proof.Machine

/-- A line of a test program (R76). The operands of a request are its 8-bit channel indices. -/
inductive Line (ε : Type) where
  | seRead (p : Byte)            -- se.read <p>
  | diffRead (p m : Byte)        -- diff.read <p>, <m>
  | word (w : Req24)             -- .word 0x<6 hex>
  | xferOk (rx : List Byte)      -- xfer.ok <N bytes>, first byte first
  | xferErr (e : ε)      -- xfer.err <name>
deriving DecidableEq, Repr

/-- The input a line stands for: `se.read <p>` is 0x01 <p> 0x00 and `diff.read <p>, <m>` is 0x02 <p> <m> (R76). -/
def Line.input {ε : Type} : Line ε → Input ε
  | .seRead p => .present (.request (requestWord 1 p 0))
  | .diffRead p m => .present (.request (requestWord 2 p m))
  | .word w => .present (.request w)
  | .xferOk rx => .answer (.ok rx)
  | .xferErr e => .answer (.err e)

/-- A block with a program loaded at its ports. -/
def State.load (program : List (Line PeriphErr)) (s : State) : State := { s with inputs := program.map Line.input }

end Sys2Proof.Machine
end

