-- ==== Sys2Proof/Machine/Parameters.lean ====
section
/-! DEFINITION. The machine with its parameters as arguments (00_scope.md R6), and the renaming of transport error values, by which a
statement says that `PeriphErr` is opaque to the block. -/

namespace Sys2Proof.Machine

variable {ε δ : Type}

/-- The machine of a configuration and a type of transport error values (R6): its state is a `Block`, which holds no parameter. -/
def coreFor (cfg : Config) (ε : Type) : Host.Core :=
  { State := Block ε, Fault := Fault, Refusal := Refusal, step := stepFor cfg, reset := Block.resetFor cfg }

/-- An answer with its error value renamed. -/
def Answer.renamePeriph (f : ε → δ) : Answer ε → Answer δ
  | .ok rx => .ok rx
  | .err e => .err (f e)

/-- An input with its error value renamed. -/
def Input.renamePeriph (f : ε → δ) : Input ε → Input δ
  | .present w => .present w
  | .answer a => .answer (a.renamePeriph f)
  | .lateAnswer a => .lateAnswer (a.renamePeriph f)
  | .reset => .reset

/-- A response with its error value renamed. -/
def Response.renamePeriph (f : ε → δ) (r : Response ε) : Response δ :=
  { status := r.status
    value := r.value
    range := r.range
    denom := r.denom
    errA := r.errA
    errB := r.errB
    periph := r.periph.map f }

/-- An output with its error value renamed. -/
def Output.renamePeriph (f : ε → δ) : Output ε → Output δ
  | .transfer tx => .transfer tx
  | .response r => .response (r.renamePeriph f)

/-- A block with every error value in it renamed. -/
def Block.renamePeriph (f : ε → δ) (b : Block ε) : Block δ :=
  { phase := b.phase
    txbuf := b.txbuf
    rxbuf := b.rxbuf
    inputs := b.inputs.map (Input.renamePeriph f)
    outputs := b.outputs.map (Output.renamePeriph f)
    freeDraws := b.freeDraws }

end Sys2Proof.Machine
end

