-- ==== Sys2Proof/Safety.lean ====
section
/-! DEFINITION. What a safe run of the block is, in the words the statements use: the frames it may emit (10_state.md R35), the
responses it may emit (30_encoding.md R73, 42_response_decoder.md R145, 60_exceptions.md R200), the order of its outputs
(20_memory.md R47, R50), and the invariant of the state that every step keeps. -/

namespace Sys2Proof.Machine

variable {ε : Type}

/-- `tx` is a command frame this block may hand to the transport (R35, R66): one MODE, and an ADDRESS below the channel count. -/
def Emits (cfg : Config) (tx : List Byte) : Prop :=
  ∃ mode addr, addr < cfg.count ∧ tx = serialize cfg (encodeFrame cfg mode addr)

/-- A response the block may emit (R33, R73, R145, R200): its numbers fit their fields of `RSP64`; an `OK` response holds a Reading
that is at most its range, with no error payload; any other response holds no Reading; `periph` is present exactly with
`PERIPHERAL`. -/
structure ResponseOk (cfg : Config) (r : Response ε) : Prop where
  fits : r.value < 2 ^ 15 ∧ r.range < 2 ^ 15 ∧ r.denom < 2 ^ 15
  reading : r.status = .ok →
    r.value ≤ r.range ∧ r.range = 2 ^ cfg.r - 1 ∧ r.denom = cfg.denom ∧ r.errA = 0 ∧ r.errB = 0
  noReading : r.status ≠ .ok → r.value = 0 ∧ r.range = 0 ∧ r.denom = 0
  periph : r.periph.isSome = true ↔ r.status = .peripheral

/-- The outputs of a block, newest first: every `Transfer` is of a frame it may emit, every response is one it may emit, and a
response whose transaction issued a `Transfer` follows that `Transfer` with nothing between (R47, R50). -/
def OutputsOk (cfg : Config) : List (Output ε) → Prop
  | [] => True
  | .transfer tx :: older => Emits cfg tx ∧ OutputsOk cfg older
  | .response r :: older =>
    ResponseOk cfg r ∧ (r.status.transferIssued = true → ∃ tx oldest, older = .transfer tx :: oldest) ∧ OutputsOk cfg older

/-- The invariant of the state: both buffers hold N bytes (R31, R32), the outputs are safe, and while the block waits its last
output is the `Transfer` of what `TXBUF` holds (R31, R162, R163). -/
structure Inv (s : State) : Prop where
  txLength : s.txbuf.length = s.cfg.n
  rxLength : s.rxbuf.length = s.cfg.n
  outputs : OutputsOk s.cfg s.outputs
  waiting : s.phase = .waitXfer → ∃ older, s.outputs = .transfer s.txbuf :: older

/-- The transport keeps its contract for a block (R41): no answer of another length than N. -/
def Input.keepsContract (cfg : Config) : Input ε → Bool
  | .present _ => true
  | .answer (.ok rx) => rx.length == cfg.n
  | .answer (.err _) => true
  | .lateAnswer _ => true
  | .reset => true

/-- The inputs of a platform in use (R70, R41): the caller presents request words, the transport keeps its contract. -/
def Input.ordinary (cfg : Config) : Input ε → Bool
  | .present (.request _) => true
  | .present (.frame _) => false
  | .answer a => (Input.answer a).keepsContract cfg
  | .lateAnswer _ => true
  | .reset => true

/-- The words presented at the ports and not yet taken, first presented first. -/
def presented : List (Input ε) → List PortWord
  | [] => []
  | .present w :: rest => w :: presented rest
  | .answer _ :: rest => presented rest
  | .lateAnswer _ :: rest => presented rest
  | .reset :: rest => presented rest

end Sys2Proof.Machine
end

