-- ==== Sys2Proof/Certificates/Slice0/Obligations.lean ====
section
/-! DEFINITION. The statements for the provers, in the order of the spec's files: configuration, encodings, accept steps, frames,
completion steps, the sequencer, reset, the whole machine. OBLIGATIONS.json lists them. -/

open Sys2Proof Sys2Proof.Machine

/-! ## Configuration (10_state.md, 40_validation.md) -/

/-- R100, R101: a width of 1 to 15 is a resolution, with the range (0, 2^width - 1); any other width is a configuration error. -/
def Obligations.ResolutionCreateAcceptsExactlyOneToFifteen : Prop :=
  ∀ width : Nat,
    ((width = 0 ∨ 16 ≤ width) → Resolution.create width = .error (.resolution width)) ∧
    (1 ≤ width ∧ width ≤ 15 →
      ∃ res, Resolution.create width = .ok res ∧ res.width = width ∧ res.range = (0, 2 ^ width - 1))

/-- R102, R103: exactly the counts 2, 4 and 8 are channel counts; the address is 1 bit wide for 2 channels and 3 bits for 4 or 8. -/
def Obligations.ChannelsCreateAcceptsExactlyTwoFourEight : Prop :=
  ∀ count : Nat,
    ((count = 2 ∨ count = 4 ∨ count = 8) →
      ∃ ch, ChannelCount.create count = .ok ch ∧ ch.toNat = count ∧ ch.addressBitWidth = if count = 2 then 1 else 3) ∧
    (¬ (count = 2 ∨ count = 4 ∨ count = 8) → ChannelCount.create count = .error (.channels count))

/-- R22 to R25: the derived constants of every configuration, with their bounds. -/
def Obligations.DerivedConstantsOfEveryConfiguration : Prop :=
  ∀ cfg : Config,
    (cfg.a = if cfg.count = 2 then 1 else 3) ∧
    cfg.t = cfg.a + cfg.r + 4 ∧ 6 ≤ cfg.t ∧ cfg.t ≤ 22 ∧
    8 * (cfg.n - 1) < cfg.t ∧ cfg.t ≤ 8 * cfg.n ∧ 1 ≤ cfg.n ∧ cfg.n ≤ 3 ∧
    (cfg.denomMode = .resolution → cfg.denom = 2 ^ cfg.r - 1) ∧ (cfg.denomMode = .sourceFixed → cfg.denom = 4095) ∧
    1 ≤ cfg.denom ∧ cfg.denom < 2 ^ 15

/-- R27: a configuration is a supported model exactly when its (R, COUNT) pair is that model's row of the table. -/
def Obligations.SupportedModelIsItsTableRow : Prop :=
  ∀ cfg : Config,
    (cfg.model? = some .A ↔ cfg.r = 10 ∧ cfg.count = 2) ∧ (cfg.model? = some .B ↔ cfg.r = 10 ∧ cfg.count = 4) ∧
    (cfg.model? = some .C ↔ cfg.r = 10 ∧ cfg.count = 8) ∧ (cfg.model? = some .D ↔ cfg.r = 12 ∧ cfg.count = 2) ∧
    (cfg.model? = some .E ↔ cfg.r = 12 ∧ cfg.count = 4) ∧ (cfg.model? = some .F ↔ cfg.r = 12 ∧ cfg.count = 8) ∧
    (cfg.model? = some .G ↔ cfg.r = 13 ∧ cfg.count = 4) ∧ (cfg.model? = some .H ↔ cfg.r = 13 ∧ cfg.count = 8)

/-- R160, R107, R207: construction succeeds exactly for a valid pair, and gives an idle block of that configuration that has
emitted nothing; otherwise it fails with the operand the first failing validator refused. -/
def Obligations.ConstructBuildsExactlyValidConfigurations : Prop :=
  ∀ (r count : Nat) (mode : DenomMode) (bus : BusParameters),
    ((1 ≤ r ∧ r ≤ 15) ∧ (count = 2 ∨ count = 4 ∨ count = 8) →
      ∃ s, State.construct r count mode bus = .ok s ∧ s.cfg.r = r ∧ s.cfg.count = count ∧ s.cfg.denomMode = mode ∧
        s.cfg.bus = bus ∧ s.phase = .idle ∧ s.outputs = [] ∧ s.inputs = []) ∧
    (¬ (1 ≤ r ∧ r ≤ 15) → State.construct r count mode bus = .error (.resolution r)) ∧
    ((1 ≤ r ∧ r ≤ 15) ∧ ¬ (count = 2 ∨ count = 4 ∨ count = 8) → State.construct r count mode bus = .error (.channels count))

/-- R38, R240: the state after reset is idle, with no response pending and no transaction in flight, and meets the invariant, for
every configuration; `State.reset` is such a state. That the configuration of `State.reset` is model A's is the model's choice
(log entry 1). -/
def Obligations.ResetStateIsIdleAndMeetsTheInvariant : Prop :=
  (∀ cfg : Config, Inv (State.resetFor cfg) ∧ (State.resetFor cfg).phase = .idle ∧ (State.resetFor cfg).outputs = [] ∧
    (State.resetFor cfg).cfg = cfg) ∧
  ∃ cfg : Config, State.reset = State.resetFor cfg ∧ cfg.r = 10 ∧ cfg.count = 2 ∧ cfg.denomMode = .resolution

/-! ## Encodings (20_memory.md, 30_encoding.md, 41_command_encoder.md) -/

/-- R61, R62 (and the places of R63, R64): START is bit T-1 and is 1; MODE is the bit below it, 1 for single-ended; below MODE
stand the A bits of the address, most significant first, and R+2 zero bits. -/
def Obligations.FrameFieldsStandWhereTheLayoutPutsThem : Prop :=
  ∀ (cfg : Config) (mode : Mode) (addr : Nat), addr < 2 ^ cfg.a →
    (encodeFrame cfg mode addr).testBit (cfg.t - 1) = true ∧
    (encodeFrame cfg mode addr).testBit (cfg.t - 2) = decide (mode = .singleEnded) ∧
    (∀ k, k < cfg.a → (encodeFrame cfg mode addr).testBit (cfg.r + 2 + k) = addr.testBit k) ∧
    (∀ k, k < cfg.r + 2 → (encodeFrame cfg mode addr).testBit k = false) ∧
    (∀ k, cfg.t ≤ k → (encodeFrame cfg mode addr).testBit k = false)

/-- R66 (derived there from R60 to R64): the three terms of the frame share no bit, so the frame is their sum and has T bits. -/
def Obligations.FrameIsTheSumOfItsFields : Prop :=
  ∀ (cfg : Config) (mode : Mode) (addr : Nat), addr < 2 ^ cfg.a →
    encodeFrame cfg mode addr =
      2 ^ (cfg.a + cfg.r + 3) + (if mode = .singleEnded then 2 ^ (cfg.a + cfg.r + 2) else 0) + addr * 2 ^ (cfg.r + 2) ∧
    2 ^ (cfg.t - 1) ≤ encodeFrame cfg mode addr ∧ encodeFrame cfg mode addr < 2 ^ cfg.t

/-- R42: N bytes, byte i holding bits 8(N-1-i)+7 down to 8(N-1-i); they make up the frame again, and the bits of the first byte
above position T-1-8(N-1) are zero. -/
def Obligations.SerializeIsMostSignificantByteFirst : Prop :=
  ∀ (cfg : Config) (f : Nat), f < 2 ^ cfg.t →
    (serialize cfg f).length = cfg.n ∧
    (∀ i, i < cfg.n → ((serialize cfg f).getD i 0).toNat = f / 2 ^ (8 * (cfg.n - 1 - i)) % 2 ^ 8) ∧
    ((List.range cfg.n).map fun i => ((serialize cfg f).getD i 0).toNat * 2 ^ (8 * (cfg.n - 1 - i))).sum = f ∧
    ((serialize cfg f).getD 0 0).toNat < 2 ^ (cfg.t - 8 * (cfg.n - 1))

/-- R44, R140: the answer bytes as one integer of 8N bits, the first byte most significant, for any number N of bytes. -/
def Obligations.AssembleIsTheWeightedSumOfTheBytes : Prop :=
  ∀ rx : List Byte,
    assemble rx = ((List.range rx.length).map fun i => (rx.getD i 0).toNat * 2 ^ (8 * (rx.length - 1 - i))).sum ∧
    assemble rx < 2 ^ (8 * rx.length)

/-- R43 (derived there from R42): bit k on the wire is bit 8N-1-k of the frame. -/
def Obligations.WireCarriesTheFrameMostSignificantBitFirst : Prop :=
  ∀ (cfg : Config) (f k : Nat), f < 2 ^ cfg.t → k < 8 * cfg.n →
    (wireBits (serialize cfg f))[k]? = some (f.testBit (8 * cfg.n - 1 - k))

/-- R77, R71, R72: a few words written out from the spec's encodings decode to the instruction they stand for. -/
def Obligations.WordsOfTheSpecDecodeToTheirInstructions : Prop :=
  ∀ bus : BusParameters,
  decode State.reset.cfg (.request 0x010300) = .ok (.seRead 3) ∧
  decode State.reset.cfg (.request 0x020204) = .ok (.diffRead 2 4) ∧
  decode State.reset.cfg (.request 0x010301) = .ok (.illegal 1 3 1) ∧
  decode State.reset.cfg (.request 0xFF0000) = .ok (.illegal 0xFF 0 0) ∧
  decode (Model.F.config .resolution bus) (.frame [0x06, 0xC0, 0x00]) = .ok (.seFrameF 3) ∧
  decode (Model.H.config .resolution bus) (.frame [0x0B, 0x80, 0x00]) = .ok (.diffFrameH 7) ∧
  decode (Model.A.config .resolution bus) (.frame [0x70, 0x00]) = .ok (.seFrameA 1)

/-- R70 to R72, R60 to R67, R77: decoding the encoded word of a well-formed instruction gives it back, on every configuration for a
request and on its row's model for a frame. -/
def Obligations.DecodingAnEncodedInstructionGivesItBack : Prop :=
  ∀ (i : Instr) (cfg : Config), i.wellFormed = true →
    (∀ m mode addr, i.frameParts = some (m, mode, addr) → cfg.model? = some m) →
    decode cfg (encode i) = .ok i

/-- The other direction: a word that decodes is the encoded word of the instruction it decodes to, and that instruction is
well-formed; so every word has one meaning. -/
def Obligations.EveryDecodedWordIsItsInstructionsEncoding : Prop :=
  ∀ (cfg : Config) (w : PortWord) (i : Instr), decode cfg w = .ok i → encode i = w ∧ i.wellFormed = true

/-- R73, R200: the places of the fields of `RSP64`, as one number, with the status codes 0 to 6 of R200. -/
def Obligations.ResponseWordHoldsItsFieldsInPlace : Prop :=
  ∀ (ε : Type) (r : Response ε), r.value < 2 ^ 15 → r.range < 2 ^ 15 → r.denom < 2 ^ 15 →
    r.word.toNat =
      (match r.status with
        | .ok => 0 | .invalidChannelNumber => 1 | .unsupportedChannel => 2 | .unsupportedDifferentialCombination => 3
        | .peripheral => 4 | .framing => 5 | .illegalRequest => 6) * 2 ^ 61 +
      r.value * 2 ^ 46 + r.range * 2 ^ 31 + r.denom * 2 ^ 16 + r.errA.toNat * 2 ^ 8 + r.errB.toNat

/-- R73: a response whose numbers fit is read back whole from its word and its side field. -/
def Obligations.ResponseWordRoundTrip : Prop :=
  ∀ (ε : Type) (r : Response ε), r.value < 2 ^ 15 → r.range < 2 ^ 15 → r.denom < 2 ^ 15 → Response.ofWord r.word r.periph = some r

/-- R74: the words that stand for no response are exactly those of the reserved status code 7. -/
def Obligations.OnlyStatusSevenIsNoResponse : Prop :=
  ∀ (ε : Type) (w : Rsp64) (periph : Option ε), Response.ofWord w periph = none ↔ w.toNat / 2 ^ 61 = 7

/-! ## Accept steps (43_device_operations.md R161 to R163, 60_exceptions.md R200 to R208)

`PHASE`, the request word and the error payloads of `INVALID_CHANNEL_NUMBER` and `ILLEGAL_REQUEST` are the spec's own decisions
(92_eei_decisions.md D4, D7, D9, D16), so these statements are derived. -/

/-- R162, R122, R120, R121: in `IDLE`, a single-ended read of a channel of the device completes its accept step: `TXBUF` holds the
frame with START, MODE = 1 and ADDRESS = p, the `Transfer` of it is issued, `PHASE` is `WAIT_XFER`; nothing else changes. -/
def Obligations.SeReadOfASupportedChannelIssuesItsTransfer : Prop :=
  ∀ (s : State) (p : Byte) (tx : List Byte), s.phase = .idle → p.toNat < s.cfg.count →
    tx = toBytes s.cfg.n (2 ^ (s.cfg.a + s.cfg.r + 3) + 2 ^ (s.cfg.a + s.cfg.r + 2) + p.toNat * 2 ^ (s.cfg.r + 2)) →
    exec (.seRead p) s = .next { s with txbuf := tx, phase := .waitXfer, outputs := .transfer tx :: s.outputs }

/-- R104, R105, R162, R201, R202, R208: in `IDLE`, an index above 7 is answered `INVALID_CHANNEL_NUMBER` on every device, and a
channel of 0 to 7 the device lacks `UNSUPPORTED_CHANNEL`; only the response is new. -/
def Obligations.SeReadOfABadChannelIsAnswered : Prop :=
  ∀ (s : State) (p : Byte), s.phase = .idle →
    (8 ≤ p.toNat → exec (.seRead p) s = .next
      { s with outputs := .response ⟨.invalidChannelNumber, 0, 0, 0, p, 0, none⟩ :: s.outputs }) ∧
    (s.cfg.count ≤ p.toNat ∧ p.toNat ≤ 7 → exec (.seRead p) s = .next
      { s with outputs := .response ⟨.unsupportedChannel, 0, 0, 0, p, 0, none⟩ :: s.outputs })

/-- R163, R123, R106: in `IDLE`, a differential read of a pair of the table, both channels of the device, completes its accept
step: MODE = 0, ADDRESS = plus; nothing else changes. -/
def Obligations.DiffReadOfALegalPairIssuesItsTransfer : Prop :=
  ∀ (s : State) (p m : Byte) (tx : List Byte), s.phase = .idle → p.toNat < s.cfg.count →
    (p, m) ∈ [((0 : Byte), (1 : Byte)), (1, 0), (2, 3), (3, 2), (4, 5), (5, 4), (6, 7), (7, 6)] →
    tx = toBytes s.cfg.n (2 ^ (s.cfg.a + s.cfg.r + 3) + p.toNat * 2 ^ (s.cfg.r + 2)) →
    exec (.diffRead p m) s = .next { s with txbuf := tx, phase := .waitXfer, outputs := .transfer tx :: s.outputs }

/-- R163, R208, R201 to R203: in `IDLE`, a differential read that fails is answered with the first failing check of R208, plus
before minus; only the response is new. -/
def Obligations.DiffReadReportsItsFirstFailingCheck : Prop :=
  ∀ (s : State) (p m : Byte), s.phase = .idle →
    (8 ≤ p.toNat → exec (.diffRead p m) s = .next
      { s with outputs := .response ⟨.invalidChannelNumber, 0, 0, 0, p, 0, none⟩ :: s.outputs }) ∧
    (p.toNat ≤ 7 ∧ 8 ≤ m.toNat → exec (.diffRead p m) s = .next
      { s with outputs := .response ⟨.invalidChannelNumber, 0, 0, 0, m, 0, none⟩ :: s.outputs }) ∧
    (p.toNat ≤ 7 ∧ m.toNat ≤ 7 ∧ s.cfg.count ≤ p.toNat → exec (.diffRead p m) s = .next
      { s with outputs := .response ⟨.unsupportedChannel, 0, 0, 0, p, 0, none⟩ :: s.outputs }) ∧
    (p.toNat < s.cfg.count ∧ m.toNat ≤ 7 ∧ s.cfg.count ≤ m.toNat → exec (.diffRead p m) s = .next
      { s with outputs := .response ⟨.unsupportedChannel, 0, 0, 0, m, 0, none⟩ :: s.outputs }) ∧
    (p.toNat < s.cfg.count ∧ m.toNat < s.cfg.count ∧
        (p, m) ∉ [((0 : Byte), (1 : Byte)), (1, 0), (2, 3), (3, 2), (4, 5), (5, 4), (6, 7), (7, 6)] →
      exec (.diffRead p m) s = .next
        { s with outputs := .response ⟨.unsupportedDifferentialCombination, 0, 0, 0, p, m, none⟩ :: s.outputs })

/-- R72, R206: in `IDLE`, an illegal request is answered `ILLEGAL_REQUEST` with `OP` and `M`; only the response is new. -/
def Obligations.IllegalRequestIsAnswered : Prop :=
  ∀ (s : State) (op p m : Byte), s.phase = .idle →
    exec (.illegal op p m) s = .next { s with outputs := .response ⟨.illegalRequest, 0, 0, 0, op, m, none⟩ :: s.outputs }

/-- 90_conflicts.md C5, R106, R105: of the 64 ordered pairs over channels 0 to 7, exactly COUNT are accepted by a device. -/
def Obligations.AsManyPairsAcceptedAsChannels : Prop :=
  ∀ cfg : Config,
    (((List.range 8).flatMap fun p => (List.range 8).map fun m => (p, m)).filter fun pm =>
      (differentialCommand cfg (BitVec.ofNat 8 pm.1) (BitVec.ofNat 8 pm.2)).isOk).length = cfg.count

/-- In `WAIT_XFER` no instruction is accepted (R161, R167): `exec` of each, frame rows too, answers the unchanged state. That it
answers so is the model's choice (log entry 4); the rules say only that a request is held. -/
def Obligations.WaitingBlockHoldsEveryInstruction : Prop :=
  ∀ (i : Instr) (s : State), s.phase = .waitXfer → exec i s = .next s

/-- R9, R162 to R166, R209: what an instruction leaves unchanged when it goes on: the configuration, `RXBUF`, the inputs, the free
draws and the earlier outputs always; `TXBUF` and `PHASE` unless a `Transfer` is issued. -/
def Obligations.InstructionFrame : Prop :=
  ∀ (i : Instr) (s t : State), exec i s = .next t →
    t.cfg = s.cfg ∧ t.rxbuf = s.rxbuf ∧ t.inputs = s.inputs ∧ t.freeDraws = s.freeDraws ∧
    ((t.outputs = s.outputs ∧ t.txbuf = s.txbuf ∧ t.phase = s.phase) ∨
     (∃ r, t.outputs = .response r :: s.outputs ∧ r.status.transferIssued = false ∧ t.txbuf = s.txbuf ∧ t.phase = s.phase) ∨
     (t.outputs = .transfer t.txbuf :: s.outputs ∧ s.phase = .idle ∧ t.phase = .waitXfer))

/-! ## Command frames (30_encoding.md R60 to R67, R77; 41_command_encoder.md R122, R123) -/

/-- The rows `SE_FRAME_A` to `SE_FRAME_H` of the opcode table (R60 to R67, R77, R122): on a block of the row's model, in `IDLE`, with an
ADDRESS below the channel count, running the row emits its word (its match value with the ADDRESS in its field): `TXBUF` holds it, its
`Transfer` is issued, `PHASE` is `WAIT_XFER`, as at the end of the accept step of R162; nothing else changes. That a frame is run as an
instruction of its own, and that its meaning is this emission, is the model's choice (log entry 5). -/
def Obligations.SingleEndedFramesAreEmitted : Prop :=
  ∀ s : State, s.phase = .idle →
    (∀ (a : BitVec 1) (tx : List Byte), s.cfg.model? = some .A → tx = toBytes 2 (0x6000 + a.toNat * 2 ^ 12) →
      exec (.seFrameA a) s = .next { s with txbuf := tx, phase := .waitXfer, outputs := .transfer tx :: s.outputs }) ∧
    (∀ (a : BitVec 3) (tx : List Byte), s.cfg.model? = some .B → a.toNat < 4 → tx = toBytes 3 (0x018000 + a.toNat * 2 ^ 12) →
      exec (.seFrameB a) s = .next { s with txbuf := tx, phase := .waitXfer, outputs := .transfer tx :: s.outputs }) ∧
    (∀ (a : BitVec 3) (tx : List Byte), s.cfg.model? = some .C → tx = toBytes 3 (0x018000 + a.toNat * 2 ^ 12) →
      exec (.seFrameC a) s = .next { s with txbuf := tx, phase := .waitXfer, outputs := .transfer tx :: s.outputs }) ∧
    (∀ (a : BitVec 1) (tx : List Byte), s.cfg.model? = some .D → tx = toBytes 3 (0x018000 + a.toNat * 2 ^ 14) →
      exec (.seFrameD a) s = .next { s with txbuf := tx, phase := .waitXfer, outputs := .transfer tx :: s.outputs }) ∧
    (∀ (a : BitVec 3) (tx : List Byte), s.cfg.model? = some .E → a.toNat < 4 → tx = toBytes 3 (0x060000 + a.toNat * 2 ^ 14) →
      exec (.seFrameE a) s = .next { s with txbuf := tx, phase := .waitXfer, outputs := .transfer tx :: s.outputs }) ∧
    (∀ (a : BitVec 3) (tx : List Byte), s.cfg.model? = some .F → tx = toBytes 3 (0x060000 + a.toNat * 2 ^ 14) →
      exec (.seFrameF a) s = .next { s with txbuf := tx, phase := .waitXfer, outputs := .transfer tx :: s.outputs }) ∧
    (∀ (a : BitVec 3) (tx : List Byte), s.cfg.model? = some .G → a.toNat < 4 → tx = toBytes 3 (0x0C0000 + a.toNat * 2 ^ 15) →
      exec (.seFrameG a) s = .next { s with txbuf := tx, phase := .waitXfer, outputs := .transfer tx :: s.outputs }) ∧
    (∀ (a : BitVec 3) (tx : List Byte), s.cfg.model? = some .H → tx = toBytes 3 (0x0C0000 + a.toNat * 2 ^ 15) →
      exec (.seFrameH a) s = .next { s with txbuf := tx, phase := .waitXfer, outputs := .transfer tx :: s.outputs })

/-- The rows `DIFF_FRAME_A` to `DIFF_FRAME_H` of the opcode table (R60 to R67, R77, R123): on a block of the row's model, in `IDLE`, with
an ADDRESS below the channel count, running the row emits its word: `TXBUF` holds it, its `Transfer` is issued, `PHASE` is `WAIT_XFER`,
as at the end of the accept step of R163; nothing else changes. That a frame is run as an instruction of its own, and that its meaning
is this emission, is the model's choice (log entry 5). -/
def Obligations.DifferentialFramesAreEmitted : Prop :=
  ∀ s : State, s.phase = .idle →
    (∀ (a : BitVec 1) (tx : List Byte), s.cfg.model? = some .A → tx = toBytes 2 (0x4000 + a.toNat * 2 ^ 12) →
      exec (.diffFrameA a) s = .next { s with txbuf := tx, phase := .waitXfer, outputs := .transfer tx :: s.outputs }) ∧
    (∀ (a : BitVec 3) (tx : List Byte), s.cfg.model? = some .B → a.toNat < 4 → tx = toBytes 3 (0x010000 + a.toNat * 2 ^ 12) →
      exec (.diffFrameB a) s = .next { s with txbuf := tx, phase := .waitXfer, outputs := .transfer tx :: s.outputs }) ∧
    (∀ (a : BitVec 3) (tx : List Byte), s.cfg.model? = some .C → tx = toBytes 3 (0x010000 + a.toNat * 2 ^ 12) →
      exec (.diffFrameC a) s = .next { s with txbuf := tx, phase := .waitXfer, outputs := .transfer tx :: s.outputs }) ∧
    (∀ (a : BitVec 1) (tx : List Byte), s.cfg.model? = some .D → tx = toBytes 3 (0x010000 + a.toNat * 2 ^ 14) →
      exec (.diffFrameD a) s = .next { s with txbuf := tx, phase := .waitXfer, outputs := .transfer tx :: s.outputs }) ∧
    (∀ (a : BitVec 3) (tx : List Byte), s.cfg.model? = some .E → a.toNat < 4 → tx = toBytes 3 (0x040000 + a.toNat * 2 ^ 14) →
      exec (.diffFrameE a) s = .next { s with txbuf := tx, phase := .waitXfer, outputs := .transfer tx :: s.outputs }) ∧
    (∀ (a : BitVec 3) (tx : List Byte), s.cfg.model? = some .F → tx = toBytes 3 (0x040000 + a.toNat * 2 ^ 14) →
      exec (.diffFrameF a) s = .next { s with txbuf := tx, phase := .waitXfer, outputs := .transfer tx :: s.outputs }) ∧
    (∀ (a : BitVec 3) (tx : List Byte), s.cfg.model? = some .G → a.toNat < 4 → tx = toBytes 3 (0x080000 + a.toNat * 2 ^ 15) →
      exec (.diffFrameG a) s = .next { s with txbuf := tx, phase := .waitXfer, outputs := .transfer tx :: s.outputs }) ∧
    (∀ (a : BitVec 3) (tx : List Byte), s.cfg.model? = some .H → tx = toBytes 3 (0x080000 + a.toNat * 2 ^ 15) →
      exec (.diffFrameH a) s = .next { s with txbuf := tx, phase := .waitXfer, outputs := .transfer tx :: s.outputs })

/-- R35, R67, R77: in `IDLE`, a frame of another model's row, or with an ADDRESS this block never emits, is refused by name. That a
frame can be run as an instruction of its own is the model's form (log entry 5). -/
def Obligations.FramesTheBlockNeverEmitsAreRefused : Prop :=
  ∀ (i : Instr) (s : State) (m : Model) (mode : Mode) (addr : Nat), s.phase = .idle → i.frameParts = some (m, mode, addr) →
    (s.cfg.model? ≠ some m ∨ s.cfg.count ≤ addr) → exec i s = .refused (.frameNotEmitted m addr)

/-- On a supported model, the accept step of a single-ended read of a channel of the device (R122, R162) is the emission of that
model's frame row. That a frame's meaning is its emission is the model's choice (log entry 5), and so is that both are held with
the state unchanged in `WAIT_XFER` (log entry 4). -/
def Obligations.SeReadIsTheEmissionOfItsFrameRow : Prop :=
  ∀ (s : State) (m : Model) (p : Byte), s.cfg.model? = some m → p.toNat < s.cfg.count →
    exec (.seRead p) s = exec (frameInstr m .singleEnded p.toNat) s

/-- On a supported model, the accept step of a differential read of a legal pair of the device (R106, R123, R163) is the emission of
that model's frame row. That a frame's meaning is its emission is the model's choice (log entry 5), and so is that both are held with
the state unchanged in `WAIT_XFER` (log entry 4). -/
def Obligations.DiffReadIsTheEmissionOfItsFrameRow : Prop :=
  ∀ (s : State) (m : Model) (p q : Byte), s.cfg.model? = some m → p.toNat < s.cfg.count → q = p ^^^ 1 →
    exec (.diffRead p q) s = exec (frameInstr m .differential p.toNat) s

/-! ## Completion steps (43_device_operations.md R164, R165; 42_response_decoder.md). The words presented meanwhile stand in front
of the answer and stay there (R167). That the outside's next actions stand as a list in the state is the model's form (log entry 2). -/

/-- R164, R141, R142, R147: an answer of N bytes below 2^R ends the transaction in an `OK` response with its Reading. -/
def Obligations.AnswerBelowTwoPowRIsAReading : Prop :=
  ∀ (s : State) (held : List PortWord) (rx : List Byte) (rest : List (Input PeriphErr)),
    s.phase = .waitXfer → s.inputs = held.map Input.present ++ .answer (.ok rx) :: rest → rx.length = s.cfg.n →
    assemble rx < 2 ^ s.cfg.r →
    step s = .next
      { s with
        phase := .idle
        rxbuf := rx
        inputs := held.map Input.present ++ rest
        outputs := .response ⟨.ok, assemble rx, 2 ^ s.cfg.r - 1, s.cfg.denom, 0, 0, none⟩ :: s.outputs }

/-- R164, R141, R205: an answer of N bytes from 2^R on (some bit at position R or above) ends it in `FRAMING`, with no Reading. -/
def Obligations.AnswerFromTwoPowROnIsAFramingError : Prop :=
  ∀ (s : State) (held : List PortWord) (rx : List Byte) (rest : List (Input PeriphErr)),
    s.phase = .waitXfer → s.inputs = held.map Input.present ++ .answer (.ok rx) :: rest → rx.length = s.cfg.n →
    2 ^ s.cfg.r ≤ assemble rx →
    step s = .next
      { s with
        phase := .idle
        rxbuf := rx
        inputs := held.map Input.present ++ rest
        outputs := .response ⟨.framing, 0, 0, 0, 0, 0, none⟩ :: s.outputs }

/-- R164, R165, R204: a transport error ends it in `PERIPHERAL`, the error value unchanged; `RXBUF` is not written. -/
def Obligations.TransportErrorIsPassedUnchanged : Prop :=
  ∀ (s : State) (held : List PortWord) (e : PeriphErr) (rest : List (Input PeriphErr)),
    s.phase = .waitXfer → s.inputs = held.map Input.present ++ .answer (.err e) :: rest →
    step s = .next
      { s with
        phase := .idle
        inputs := held.map Input.present ++ rest
        outputs := .response ⟨.peripheral, 0, 0, 0, 0, 0, some e⟩ :: s.outputs }

/-- R41: an `Ok` answer of another length is outside the model, and is refused by name (the form of the stop: log entry 7). -/
def Obligations.AnswerOfAnotherLengthIsRefused : Prop :=
  ∀ (s : State) (held : List PortWord) (rx : List Byte) (rest : List (Input PeriphErr)),
    s.phase = .waitXfer → s.inputs = held.map Input.present ++ .answer (.ok rx) :: rest → rx.length ≠ s.cfg.n →
    step s = .refused (.answerLength rx.length s.cfg.n)

/-- R146, R25: the fraction of a decoded answer is its value over 2^R - 1 with the denominator mode `RESOLUTION`, where it lies in 0
to 1 and is 1 exactly at the top of the range, and its value over 4095 with `SOURCE_FIXED`. -/
def Obligations.FractionOfADecodedAnswer : Prop :=
  ∀ (cfg : Config) (rx : List Byte) (rd : Reading), decodeAnswer cfg rx = .ok rd →
    (cfg.denomMode = .resolution →
      rd.fraction cfg * (2 ^ cfg.r - 1) = (rd.value : Rat) ∧ 0 ≤ rd.fraction cfg ∧ rd.fraction cfg ≤ 1 ∧ (rd.fraction cfg = 1 ↔ rd.value = rd.range)) ∧
    (cfg.denomMode = .sourceFixed → rd.fraction cfg * 4095 = (rd.value : Rat))

/-! ## The sequencer (43_device_operations.md R161, R167, R168, R170) -/

/-- In `IDLE`, a word at a port that decodes to an instruction is taken from the port, and the step is that instruction's meaning;
for a request word this is R161. That frames can stand at a port of their own, and that one that decodes to no instruction is
refused by name, is the model's choice (log entry 5). -/
def Obligations.StepRunsTheDecodedInstruction : Prop :=
  ∀ (s : State) (w : PortWord) (rest : List (Input PeriphErr)), s.phase = .idle → s.inputs = .present w :: rest →
    (∀ i, decode s.cfg w = .ok i → step s = exec i { s with inputs := rest }) ∧
    (∀ e, decode s.cfg w = .error e → step s = .refused (.frameRejected e))

/-- R76: the lines `se.read`, `diff.read` and `.word` of a loaded program run the instructions they spell. -/
def Obligations.ProgramLinesRunTheirInstructions : Prop :=
  ∀ (s : State) (p m : Byte) (w : Req24) (program : List (Line PeriphErr)), s.phase = .idle →
    step (s.load (.seRead p :: program)) = exec (.seRead p) (s.load program) ∧
    step (s.load (.diffRead p m :: program)) = exec (.diffRead p m) (s.load program) ∧
    step (s.load (.word w :: program)) = exec (decodeRequest w) (s.load program)

/-- R168, R250: if nothing but words at the ports comes, a waiting block stays as it is for any number of steps. That a step with
nothing enabled answers the unchanged state is the model's choice (log entry 4). -/
def Obligations.UnansweredTransferWaitsForEver : Prop :=
  ∀ (s : State) (held : List PortWord), s.phase = .waitXfer → s.inputs = held.map Input.present →
    ∀ k, core.run k s = .next s

/-- R167: a step of a waiting block neither drops nor takes a word presented at a port. -/
def Obligations.WaitingBlockKeepsPresentedWords : Prop :=
  ∀ s t : State, s.phase = .waitXfer → step s = .next t → presented t.inputs = presented s.inputs

/-- R240, R241: a reset, in either phase, leaves an idle block of the same configuration; it emits no response and issues no
`Transfer`. The buffers are N bytes of any value (free values, log entry 3). That a reset in `WAIT_XFER` passes the words held in front
of it and leaves them at the ports is the model's choice (log entry 9), made because R167 has them held and not dropped. -/
def Obligations.ResetAbandonsTheTransactionSilently : Prop :=
  ∀ (s : State) (held : List PortWord) (rest : List (Input PeriphErr)),
    s.inputs = held.map Input.present ++ .reset :: rest → (s.phase = .waitXfer ∨ held = []) →
    ∃ (tx rx : List Byte) (draws : Nat), tx.length = s.cfg.n ∧ rx.length = s.cfg.n ∧
      step s = .next
        { s with
          phase := .idle
          txbuf := tx
          rxbuf := rx
          inputs := held.map Input.present ++ rest
          freeDraws := draws }

/-- R241, R164: an answer for an abandoned `Transfer` is not decoded: it passes, in either phase, and so does any answer that finds
the block idle; nothing but the inputs changes. That such answers are inputs of their own is the model's form (log entry 8). -/
def Obligations.LateAnswerIsNotDecoded : Prop :=
  ∀ (s : State) (held : List PortWord) (a : Answer PeriphErr) (rest : List (Input PeriphErr)),
    (s.phase = .waitXfer ∧ s.inputs = held.map Input.present ++ .lateAnswer a :: rest →
      step s = .next { s with inputs := held.map Input.present ++ rest }) ∧
    (s.phase = .idle ∧ (s.inputs = .lateAnswer a :: rest ∨ s.inputs = .answer a :: rest) →
      step s = .next { s with inputs := rest })

/-- The source's round trip (95_test_vectors.md 1.5; R162, R164): a single-ended read of a channel of the device, answered with a
value below 2^R in N bytes, most significant first, ends after two steps in the `OK` response with that value and the range
2^R - 1, right after its `Transfer`. -/
def Obligations.SingleEndedReadReturnsTheTransportsValue : Prop :=
  ∀ (s : State) (p : Byte) (v : Nat) (tx : List Byte) (rest : List (Input PeriphErr)),
    s.phase = .idle → p.toNat < s.cfg.count → v < 2 ^ s.cfg.r →
    s.inputs = .present (.request (requestWord 1 p 0)) :: .answer (.ok (toBytes s.cfg.n v)) :: rest →
    tx = toBytes s.cfg.n (2 ^ (s.cfg.a + s.cfg.r + 3) + 2 ^ (s.cfg.a + s.cfg.r + 2) + p.toNat * 2 ^ (s.cfg.r + 2)) →
    core.run 2 s = .next
      { s with
        txbuf := tx
        rxbuf := toBytes s.cfg.n v
        inputs := rest
        outputs :=
          .response ⟨.ok, v, 2 ^ s.cfg.r - 1, s.cfg.denom, 0, 0, none⟩ :: .transfer tx :: s.outputs }

/-- The same round trip for a differential read of a legal pair of the device (R163, R164: the completion step does not look at the
request): it ends after two steps in the `OK` response with the transport's value, right after its `Transfer` with MODE = 0 and
ADDRESS = plus. -/
def Obligations.DifferentialReadReturnsTheTransportsValue : Prop :=
  ∀ (s : State) (p m : Byte) (v : Nat) (tx : List Byte) (rest : List (Input PeriphErr)),
    s.phase = .idle → p.toNat < s.cfg.count →
    (p, m) ∈ [((0 : Byte), (1 : Byte)), (1, 0), (2, 3), (3, 2), (4, 5), (5, 4), (6, 7), (7, 6)] → v < 2 ^ s.cfg.r →
    s.inputs = .present (.request (requestWord 2 p m)) :: .answer (.ok (toBytes s.cfg.n v)) :: rest →
    tx = toBytes s.cfg.n (2 ^ (s.cfg.a + s.cfg.r + 3) + p.toNat * 2 ^ (s.cfg.r + 2)) →
    core.run 2 s = .next
      { s with
        txbuf := tx
        rxbuf := toBytes s.cfg.n v
        inputs := rest
        outputs :=
          .response ⟨.ok, v, 2 ^ s.cfg.r - 1, s.cfg.denom, 0, 0, none⟩ :: .transfer tx :: s.outputs }

/-! ## The whole machine -/

/-- R6, R242: no rule reads `BUS_MODE` or `SCLK_MAX_HZ`: the machines of two configurations that differ only in them run alike. -/
def Obligations.BusParametersAreReadByNothing : Prop :=
  ∀ (ε : Type) (cfg : Config) (bus : BusParameters) (k : Nat) (b : Block ε),
    (coreFor { cfg with bus := bus } ε).run k b = (coreFor cfg ε).run k b

/-- R6: the machine takes the configuration and the type of transport error values as arguments (`coreFor`), and the state of the
host's interface adds nothing: a run of a block beside its configuration is the run of the machine of that configuration, over
`PeriphErr`. That the interface's state carries the configuration is the model's form (log entry 1). -/
def Obligations.ConfigurationIsAnArgumentOfTheMachine : Prop :=
  ∀ (cfg : Config) (k : Nat) (b : Block PeriphErr),
    core.run k (b.configured cfg) = mapNext (Block.configured cfg) ((coreFor cfg PeriphErr).run k b) ∧
    State.resetFor cfg = ((coreFor cfg PeriphErr).reset).configured cfg

/-- R6, R41, R165: `PeriphErr` is any type, opaque to the block. For any function between two types of error values, renaming those of a
block and then running the machine is running it and then renaming: a run neither looks inside an error value nor makes one up.
So the numbers the host's interface gives for `PeriphErr` (log entry 6) stand for any other type. -/
def Obligations.TransportErrorValuesAreOpaque : Prop :=
  ∀ (ε δ : Type) (f : ε → δ) (cfg : Config) (k : Nat) (b : Block ε),
    (coreFor cfg δ).run k (b.renamePeriph f) = mapNext (Block.renamePeriph f) ((coreFor cfg ε).run k b)

/-- R26: no step, and so no run, changes the configuration. -/
def Obligations.NoRunChangesTheConfiguration : Prop :=
  ∀ (k : Nat) (s t : State), core.run k s = .next t → t.cfg = s.cfg

/-- R31, R35, R47, R50, R73, R145, R200: every step keeps the invariant of Safety.lean. -/
def Obligations.EveryStepKeepsTheInvariant : Prop :=
  ∀ s t : State, Inv s → step s = .next t → Inv t

/-- R47, R50, R166, R170: a step emits at most one output. A `Transfer` takes `PHASE` from `IDLE` to `WAIT_XFER`, and is of `TXBUF`; a
response of a transaction that issued a `Transfer` takes it from `WAIT_XFER` to `IDLE`; any other response leaves it `IDLE`. -/
def Obligations.EveryOutputIsOneSequencerStep : Prop :=
  ∀ s t : State, step s = .next t →
    t.outputs = s.outputs ∨
    (∃ tx, t.outputs = .transfer tx :: s.outputs ∧ s.phase = .idle ∧ t.phase = .waitXfer ∧ t.txbuf = tx ∧ t.rxbuf = s.rxbuf) ∨
    (∃ r, t.outputs = .response r :: s.outputs ∧ t.phase = .idle ∧ t.txbuf = s.txbuf ∧
      (r.status.transferIssued = true → s.phase = .waitXfer) ∧
      (r.status.transferIssued = false → s.phase = .idle ∧ t.rxbuf = s.rxbuf))

/-- R167, R164, R241: a waiting block becomes idle only by taking, from behind the words held, the answer to its `Transfer`, with
one response, or a reset, with none; an idle block begins to wait only by taking the word at its port, with the `Transfer` of
`TXBUF`. The words held stay. -/
def Obligations.PhaseChangesOnlyByTransferAnswerOrReset : Prop :=
  ∀ s t : State, step s = .next t →
    (s.phase = .waitXfer → t.phase = .idle → ∃ (held : List PortWord) (rest : List (Input PeriphErr)),
      t.inputs = held.map Input.present ++ rest ∧
      ((∃ a r, s.inputs = held.map Input.present ++ .answer a :: rest ∧ t.outputs = .response r :: s.outputs) ∨
       (s.inputs = held.map Input.present ++ .reset :: rest ∧ t.outputs = s.outputs))) ∧
    (s.phase = .idle → t.phase = .waitXfer → ∃ w,
      s.inputs = .present w :: t.inputs ∧ t.outputs = .transfer t.txbuf :: s.outputs)

/-- R169, R75: two idle blocks of one configuration, whatever their histories and buffers, do the same with the same word, and two
waiting blocks of one configuration the same with the same answer, whatever words are held in front of it: they stop with the same
refusal, or both go on with the same new output, the same phase and, while they wait, the same `TXBUF`. -/
def Obligations.TransactionDependsOnlyOnItsInputs : Prop :=
  ∀ s₁ s₂ : State, s₁.cfg = s₂.cfg →
    ((∃ w rest₁ rest₂, s₁.phase = .idle ∧ s₂.phase = .idle ∧ s₁.inputs = .present w :: rest₁ ∧ s₂.inputs = .present w :: rest₂) ∨
     (∃ (a : Answer PeriphErr) (held₁ held₂ : List PortWord) (rest₁ rest₂ : List (Input PeriphErr)), s₁.phase = .waitXfer ∧ s₂.phase = .waitXfer ∧
        s₁.inputs = held₁.map Input.present ++ .answer a :: rest₁ ∧ s₂.inputs = held₂.map Input.present ++ .answer a :: rest₂)) →
    (∀ r, step s₁ = .refused r → step s₂ = .refused r) ∧
    (∀ t₁, step s₁ = .next t₁ →
      ∃ t₂ new, step s₂ = .next t₂ ∧ t₁.outputs = new :: s₁.outputs ∧ t₂.outputs = new :: s₂.outputs ∧ t₁.phase = t₂.phase ∧
        (t₁.phase = .waitXfer → t₁.txbuf = t₂.txbuf))

/-- With ordinary inputs (request words, a transport that keeps its contract, resets) no run of the block ends in a fault or a
refusal, whatever the words and the answers are (R41, R209, R210). That a step with nothing enabled answers the unchanged state, so
that a run of any number of steps goes on, is the model's choice (log entry 4: R168 says only that the block stays); that an answer
which finds the block idle passes is the model's reading of R164 and R241 (log entry 8). -/
def Obligations.OrdinaryInputsNeverStopTheBlock : Prop :=
  ∀ (k : Nat) (s : State), (∀ x ∈ s.inputs, x.ordinary s.cfg = true) → ∃ t, core.run k s = .next t
end

