-- ==== Sys2Proof/Laws/Bits.lean ====
section
/-! SUPPORT. Lemmas on byte order: the bytes of a number, and the number of a byte sequence, undo each other. -/

namespace Sys2Proof

@[simp] theorem toBytes_length (n v : Nat) : (toBytes n v).length = n := by
  induction n with
  | zero => rfl
  | succ n ih => simp [toBytes, ih]

theorem shift_or_byte (acc : Nat) (b : Byte) : (acc <<< 8) ||| b.toNat = acc * 256 + b.toNat := by
  rw [← Nat.shiftLeft_add_eq_or_of_lt b.isLt, Nat.shiftLeft_eq]

theorem assemble_foldl (bs : List Byte) (acc : Nat) :
    bs.foldl (fun acc b => (acc <<< 8) ||| b.toNat) acc = acc * 256 ^ bs.length + assemble bs := by
  induction bs generalizing acc with
  | nil => simp [assemble]
  | cons b bs ih =>
    simp only [assemble, List.foldl_cons, List.length_cons] at *
    rw [ih, ih ((0 <<< 8) ||| b.toNat), shift_or_byte, shift_or_byte]
    ring

@[simp] theorem assemble_nil : assemble [] = 0 := rfl

@[simp] theorem assemble_cons (b : Byte) (bs : List Byte) :
    assemble (b :: bs) = b.toNat * 256 ^ bs.length + assemble bs := by
  have := assemble_foldl bs ((0 <<< 8) ||| b.toNat)
  simpa [assemble, shift_or_byte] using this

theorem assemble_lt (bs : List Byte) : assemble bs < 256 ^ bs.length := by
  induction bs with
  | nil => simp
  | cons b bs ih =>
    have hb : b.toNat < 256 := b.isLt
    simp only [assemble_cons, List.length_cons, pow_succ]
    nlinarith [Nat.pow_pos (n := bs.length) (show 0 < 256 by norm_num)]

theorem assemble_toBytes_mod (n v : Nat) : assemble (toBytes n v) = v % 256 ^ n := by
  induction n with
  | zero => simp [toBytes, Nat.mod_one]
  | succ n ih =>
    have h : (2 : Nat) ^ (8 * n) = 256 ^ n := by rw [pow_mul]; norm_num
    simp only [toBytes, assemble_cons, toBytes_length, ih, BitVec.toNat_ofNat, Nat.shiftRight_eq_div_pow, h]
    rw [show (2 : Nat) ^ 8 = 256 from rfl, pow_succ, Nat.mod_mul]
    ring

theorem assemble_toBytes {n v : Nat} (h : v < 256 ^ n) : assemble (toBytes n v) = v := by
  rw [assemble_toBytes_mod, Nat.mod_eq_of_lt h]

theorem toBytes_congr_mod (n v : Nat) : toBytes n (v % 256 ^ n) = toBytes n v := by
  have key : ∀ m k, m ≤ k → toBytes m (v % 256 ^ k) = toBytes m v := by
    intro m
    induction m with
    | zero => intros; rfl
    | succ m ih =>
      intro k hk
      simp only [toBytes, ih k (by omega)]
      congr 1
      apply BitVec.eq_of_toNat_eq
      have h : ∀ j, (2 : Nat) ^ (8 * j) = 256 ^ j := fun j => by rw [pow_mul]; norm_num
      simp only [BitVec.toNat_ofNat, Nat.shiftRight_eq_div_pow, h]
      obtain ⟨d, rfl⟩ : ∃ d, k = m + 1 + d := ⟨k - (m + 1), by omega⟩
      rw [pow_add, pow_succ, mul_assoc, Nat.mod_mul_right_div_self]
      rw [show (2 : Nat) ^ 8 = 256 from rfl, Nat.mod_mul_right_mod]
  exact key n n le_rfl

theorem toBytes_assemble (bs : List Byte) : toBytes bs.length (assemble bs) = bs := by
  induction bs with
  | nil => rfl
  | cons b bs ih =>
    have hlt := assemble_lt bs
    have h : (2 : Nat) ^ (8 * bs.length) = 256 ^ bs.length := by rw [pow_mul]; norm_num
    simp only [List.length_cons, toBytes, assemble_cons, Nat.shiftRight_eq_div_pow, h]
    congr 1
    · apply BitVec.eq_of_toNat_eq
      rw [BitVec.toNat_ofNat, Nat.mul_comm, Nat.mul_add_div (by positivity), Nat.div_eq_of_lt hlt, Nat.add_zero]
      exact Nat.mod_eq_of_lt b.isLt
    · rw [← toBytes_congr_mod, Nat.mul_comm, Nat.mul_add_mod, Nat.mod_eq_of_lt hlt, ih]

end Sys2Proof
end

