-- ==== Sys2Proof/Laws/Validator.lean ====
section
/-! SUPPORT. Lemmas on the configuration constants: their bounds, and the table of supported models. -/

namespace Sys2Proof

/-- A result is known from its value: what `decide` can run on, where `Except` itself has no decidable equality. -/
theorem except_of_toOption {ε α : Type} {x : Except ε α} {a : α} (h : x.toOption = some a) : x = .ok a := by
  cases x with
  | error e => cases h
  | ok b => cases h; rfl

theorem Config.r_bounds (cfg : Config) : 1 ≤ cfg.r ∧ cfg.r < 16 := cfg.resolution.valid

theorem Config.count_cases (cfg : Config) :
    (cfg.channels = .two ∧ cfg.count = 2 ∧ cfg.a = 1) ∨ (cfg.channels = .four ∧ cfg.count = 4 ∧ cfg.a = 3) ∨
      (cfg.channels = .eight ∧ cfg.count = 8 ∧ cfg.a = 3) := by
  rcases cfg with ⟨r, c, m, b⟩
  cases c <;> simp [Config.count, Config.a, ChannelCount.addressBitWidth, ChannelCount.toNat]

theorem Config.count_le_eight (cfg : Config) : cfg.count ≤ 8 := by
  rcases cfg.count_cases with h | h | h <;> omega

theorem Config.a_le_three (cfg : Config) : 1 ≤ cfg.a ∧ cfg.a ≤ 3 := by
  rcases cfg.count_cases with h | h | h <;> omega

/-- Every channel index of the device fits the ADDRESS field (R125). -/
theorem Config.count_le_two_pow (cfg : Config) : cfg.count ≤ 2 ^ cfg.a := by
  rcases cfg.count_cases with ⟨-, h, h'⟩ | ⟨-, h, h'⟩ | ⟨-, h, h'⟩ <;> rw [h, h'] <;> norm_num

/-- The frame fits its N bytes (R24). -/
theorem Config.t_le (cfg : Config) : cfg.t ≤ 8 * cfg.n := by
  unfold Config.n; omega

theorem Config.n_bounds (cfg : Config) : 1 ≤ cfg.n ∧ cfg.n ≤ 3 := by
  have := cfg.r_bounds; have := cfg.a_le_three
  unfold Config.n Config.t; omega

theorem Config.denom_lt (cfg : Config) : cfg.denom < 2 ^ 15 := by
  have h := cfg.r_bounds
  unfold Config.denom
  split
  · have : (2 : Nat) ^ cfg.r ≤ 2 ^ 15 := Nat.pow_le_pow_right (by norm_num) (by omega)
    have : 0 < (2 : Nat) ^ cfg.r := by positivity
    omega
  · norm_num

@[simp] theorem Model.model?_config (m : Model) (mode : DenomMode) (bus : BusParameters) : (m.config mode bus).model? = some m := by
  cases m <;> rfl

theorem Model.config_bus (m : Model) (mode : DenomMode) (bus : BusParameters) :
    m.config mode bus = { m.config mode .unstated with bus := bus } := by
  cases m <;> rfl

theorem Config.model?_eq_some {cfg : Config} {m : Model} (h : cfg.model? = some m) :
    cfg = m.config cfg.denomMode cfg.bus := by
  rcases cfg with ⟨⟨w, hw⟩, c, d, b⟩
  unfold Config.model? Config.r at h
  cases c <;> (dsimp only at h; split at h) <;> cases h <;> simp_all [Model.config]

end Sys2Proof
end

