-- ==== Sys2Proof/Laws/Encoder.lean ====
section
/-! SUPPORT. Lemmas on the operand checks and the command encoder. -/

namespace Sys2Proof.Machine

/-- Decoding does not read the bus parameters (R242). -/
theorem decode_bus (cfg : Config) (bus : BusParameters) (w : PortWord) : decode { cfg with bus := bus } w = decode cfg w := rfl

theorem Channel.create_of_lt {p : Byte} (h : p.toNat < 8) : Channel.create p = .ok ⟨p.toNat, h⟩ := by
  simp [Channel.create, h]

theorem Channel.create_of_ge {p : Byte} (h : 8 ≤ p.toNat) : Channel.create p = .error (.invalidChannelNumber p) := by
  simp [Channel.create, Nat.not_lt.mpr h]

theorem checkSupported_of_lt {cfg : Config} {ch : Channel} (h : ch.val < cfg.count) : checkSupported cfg ch = .ok ch := by
  simp [checkSupported, Nat.not_le.mpr h]

theorem checkSupported_of_ge {cfg : Config} {ch : Channel} (h : cfg.count ≤ ch.val) :
    checkSupported cfg ch = .error (.unsupportedChannel ch) := by
  simp [checkSupported, h]

/-- What the table lookup answers, in the closed form of R106. -/
theorem pairAddr_eq (p m : Channel) :
    pairAddr p m =
      if m.val = p.val ^^^ 1 then .ok p.val else .error (.unsupportedDifferentialCombination p m) := by
  revert p m; unfold pairAddr; intro p m
  fin_cases p <;> fin_cases m <;> rfl

/-- An ADDRESS that fits its field stays below MODE (R125). -/
theorem address_below_mode (cfg : Config) {addr : Nat} (h : addr < 2 ^ cfg.a) :
    addr * 2 ^ (cfg.r + 2) < 2 ^ (cfg.a + cfg.r + 2) := by
  rw [Nat.add_assoc, pow_add 2 cfg.a]
  exact Nat.mul_lt_mul_of_pos_right h (Nat.two_pow_pos _)

/-- The frame as a sum of its three fields (R66): no two of them share a bit. -/
theorem encodeFrame_eq_sum (cfg : Config) (mode : Mode) {addr : Nat} (h : addr < 2 ^ cfg.a) :
    encodeFrame cfg mode addr =
      2 ^ (cfg.a + cfg.r + 3) + mode.bit * 2 ^ (cfg.a + cfg.r + 2) + addr * 2 ^ (cfg.r + 2) := by
  have ha := address_below_mode cfg h
  have h1 : (1 <<< (cfg.a + cfg.r + 3)) ||| (mode.bit <<< (cfg.a + cfg.r + 2)) =
      (2 + mode.bit) <<< (cfg.a + cfg.r + 2) := by
    rw [show 1 <<< (cfg.a + cfg.r + 3) = 2 <<< (cfg.a + cfg.r + 2) by
      simp only [Nat.shiftLeft_eq]; ring, ← Nat.shiftLeft_or_distrib]
    cases mode <;> rfl
  unfold encodeFrame
  rw [h1, Nat.shiftLeft_eq addr, ← Nat.shiftLeft_add_eq_or_of_lt ha, Nat.shiftLeft_eq]
  ring

/-- The frame has T bits (R66). -/
theorem encodeFrame_lt (cfg : Config) (mode : Mode) {addr : Nat} (h : addr < 2 ^ cfg.a) :
    encodeFrame cfg mode addr < 2 ^ cfg.t := by
  have ha := address_below_mode cfg h
  have e3 : 2 ^ (cfg.a + cfg.r + 3) = 2 * 2 ^ (cfg.a + cfg.r + 2) := by ring
  have e4 : 2 ^ cfg.t = 4 * 2 ^ (cfg.a + cfg.r + 2) := by unfold Config.t; ring
  rw [encodeFrame_eq_sum cfg mode h, e3, e4]
  cases mode <;> simp only [Mode.bit] <;> omega

@[simp] theorem serialize_length (cfg : Config) (f : Nat) : (serialize cfg f).length = cfg.n := toBytes_length _ _

/-- What the checks and the encoding of `SE_READ` answer, case by case in the order of R208. -/
theorem singleEndedCommand_eq (cfg : Config) (p : Byte) :
    singleEndedCommand cfg p =
      if h : p.toNat < 8 then
        if p.toNat < cfg.count then .ok (serialize cfg (encodeFrame cfg .singleEnded p.toNat))
        else .error (.unsupportedChannel ⟨p.toNat, h⟩)
      else .error (.invalidChannelNumber p) := by
  unfold singleEndedCommand
  by_cases h : p.toNat < 8
  · rw [Channel.create_of_lt h, dif_pos h]
    by_cases hc : p.toNat < cfg.count
    · simp [bind, Except.bind, pure, Except.pure, checkSupported_of_lt (ch := ⟨p.toNat, h⟩) hc, hc, encodeSE]
    · simp [bind, Except.bind, checkSupported_of_ge (ch := ⟨p.toNat, h⟩) (Nat.not_lt.mp hc), hc]
  · rw [Channel.create_of_ge (Nat.not_lt.mp h), dif_neg h]; rfl

/-- What the checks and the encoding of `DIFF_READ` answer, case by case in the order of R208. -/
theorem differentialCommand_eq (cfg : Config) (p m : Byte) :
    differentialCommand cfg p m =
      if hp : p.toNat < 8 then
        if hm : m.toNat < 8 then
          if p.toNat < cfg.count then
            if m.toNat < cfg.count then
              if m.toNat = p.toNat ^^^ 1 then .ok (serialize cfg (encodeFrame cfg .differential p.toNat))
              else .error (.unsupportedDifferentialCombination ⟨p.toNat, hp⟩ ⟨m.toNat, hm⟩)
            else .error (.unsupportedChannel ⟨m.toNat, hm⟩)
          else .error (.unsupportedChannel ⟨p.toNat, hp⟩)
        else .error (.invalidChannelNumber m)
      else .error (.invalidChannelNumber p) := by
  unfold differentialCommand
  by_cases hp : p.toNat < 8
  · rw [Channel.create_of_lt hp, dif_pos hp]
    by_cases hm : m.toNat < 8
    · rw [Channel.create_of_lt hm, dif_pos hm]
      by_cases cp : p.toNat < cfg.count
      · by_cases cm : m.toNat < cfg.count
        · rw [if_pos cp, if_pos cm]
          simp only [bind, Except.bind, checkSupported_of_lt (ch := ⟨p.toNat, hp⟩) cp,
            checkSupported_of_lt (ch := ⟨m.toNat, hm⟩) cm, encodeDiff, pairAddr_eq]
          by_cases hx : m.toNat = p.toNat ^^^ 1
          · simp only [if_pos hx]
          · simp only [if_neg hx]
        · simp [bind, Except.bind, checkSupported_of_lt (ch := ⟨p.toNat, hp⟩) cp,
            checkSupported_of_ge (ch := ⟨m.toNat, hm⟩) (Nat.not_lt.mp cm), cp, cm]
      · simp [bind, Except.bind, checkSupported_of_ge (ch := ⟨p.toNat, hp⟩) (Nat.not_lt.mp cp), cp]
    · rw [Channel.create_of_ge (Nat.not_lt.mp hm), dif_neg hm]; rfl
  · rw [Channel.create_of_ge (Nat.not_lt.mp hp), dif_neg hp]; rfl

end Sys2Proof.Machine
end

