-- ==== Sys2Proof/Laws/State.lean ====
section
/-! SUPPORT. One lemma for each field of Block under each of its updates, and what the host's interface does to an operation. -/

namespace Sys2Proof.Machine

variable {ε : Type}

@[simp] theorem Block.respond_phase (r : Response ε) (b : Block ε) : (b.respond r).phase = b.phase := rfl
@[simp] theorem Block.respond_txbuf (r : Response ε) (b : Block ε) : (b.respond r).txbuf = b.txbuf := rfl
@[simp] theorem Block.respond_rxbuf (r : Response ε) (b : Block ε) : (b.respond r).rxbuf = b.rxbuf := rfl
@[simp] theorem Block.respond_inputs (r : Response ε) (b : Block ε) : (b.respond r).inputs = b.inputs := rfl
@[simp] theorem Block.respond_outputs (r : Response ε) (b : Block ε) : (b.respond r).outputs = .response r :: b.outputs := rfl
@[simp] theorem Block.respond_freeDraws (r : Response ε) (b : Block ε) : (b.respond r).freeDraws = b.freeDraws := rfl

@[simp] theorem Block.raise_phase (e : RequestError) (b : Block ε) : (b.raise e).phase = b.phase := rfl
@[simp] theorem Block.raise_txbuf (e : RequestError) (b : Block ε) : (b.raise e).txbuf = b.txbuf := rfl
@[simp] theorem Block.raise_rxbuf (e : RequestError) (b : Block ε) : (b.raise e).rxbuf = b.rxbuf := rfl
@[simp] theorem Block.raise_inputs (e : RequestError) (b : Block ε) : (b.raise e).inputs = b.inputs := rfl
@[simp] theorem Block.raise_outputs (e : RequestError) (b : Block ε) : (b.raise e).outputs = .response e.response :: b.outputs := rfl
@[simp] theorem Block.raise_freeDraws (e : RequestError) (b : Block ε) : (b.raise e).freeDraws = b.freeDraws := rfl

@[simp] theorem Block.issue_phase (tx : List Byte) (b : Block ε) : (b.issue tx).phase = .waitXfer := rfl
@[simp] theorem Block.issue_txbuf (tx : List Byte) (b : Block ε) : (b.issue tx).txbuf = tx := rfl
@[simp] theorem Block.issue_rxbuf (tx : List Byte) (b : Block ε) : (b.issue tx).rxbuf = b.rxbuf := rfl
@[simp] theorem Block.issue_inputs (tx : List Byte) (b : Block ε) : (b.issue tx).inputs = b.inputs := rfl
@[simp] theorem Block.issue_outputs (tx : List Byte) (b : Block ε) : (b.issue tx).outputs = .transfer tx :: b.outputs := rfl
@[simp] theorem Block.issue_freeDraws (tx : List Byte) (b : Block ε) : (b.issue tx).freeDraws = b.freeDraws := rfl

@[simp] theorem Block.finish_phase (r : Response ε) (b : Block ε) : (b.finish r).phase = .idle := rfl
@[simp] theorem Block.finish_txbuf (r : Response ε) (b : Block ε) : (b.finish r).txbuf = b.txbuf := rfl
@[simp] theorem Block.finish_rxbuf (r : Response ε) (b : Block ε) : (b.finish r).rxbuf = b.rxbuf := rfl
@[simp] theorem Block.finish_inputs (r : Response ε) (b : Block ε) : (b.finish r).inputs = b.inputs := rfl
@[simp] theorem Block.finish_outputs (r : Response ε) (b : Block ε) : (b.finish r).outputs = .response r :: b.outputs := rfl
@[simp] theorem Block.finish_freeDraws (r : Response ε) (b : Block ε) : (b.finish r).freeDraws = b.freeDraws := rfl

@[simp] theorem Block.resetRunning_phase (cfg : Config) (b : Block ε) : (b.resetRunning cfg).phase = .idle := rfl
@[simp] theorem Block.resetRunning_txbuf (cfg : Config) (b : Block ε) : (b.resetRunning cfg).txbuf = freeBytes b.freeDraws cfg.n := rfl
@[simp] theorem Block.resetRunning_rxbuf (cfg : Config) (b : Block ε) : (b.resetRunning cfg).rxbuf = freeBytes (b.freeDraws + cfg.n) cfg.n := rfl
@[simp] theorem Block.resetRunning_inputs (cfg : Config) (b : Block ε) : (b.resetRunning cfg).inputs = b.inputs := rfl
@[simp] theorem Block.resetRunning_outputs (cfg : Config) (b : Block ε) : (b.resetRunning cfg).outputs = b.outputs := rfl
@[simp] theorem Block.resetRunning_freeDraws (cfg : Config) (b : Block ε) : (b.resetRunning cfg).freeDraws = b.freeDraws + 2 * cfg.n := rfl

@[simp] theorem Block.withInputs_phase (l : List (Input ε)) (b : Block ε) : (b.withInputs l).phase = b.phase := rfl
@[simp] theorem Block.withInputs_txbuf (l : List (Input ε)) (b : Block ε) : (b.withInputs l).txbuf = b.txbuf := rfl
@[simp] theorem Block.withInputs_rxbuf (l : List (Input ε)) (b : Block ε) : (b.withInputs l).rxbuf = b.rxbuf := rfl
@[simp] theorem Block.withInputs_inputs (l : List (Input ε)) (b : Block ε) : (b.withInputs l).inputs = l := rfl
@[simp] theorem Block.withInputs_outputs (l : List (Input ε)) (b : Block ε) : (b.withInputs l).outputs = b.outputs := rfl
@[simp] theorem Block.withInputs_freeDraws (l : List (Input ε)) (b : Block ε) : (b.withInputs l).freeDraws = b.freeDraws := rfl

@[simp] theorem Block.resetFor_phase (cfg : Config) : (Block.resetFor cfg : Block ε).phase = .idle := rfl
@[simp] theorem Block.resetFor_txbuf (cfg : Config) : (Block.resetFor cfg : Block ε).txbuf = List.replicate cfg.n 0 := rfl
@[simp] theorem Block.resetFor_rxbuf (cfg : Config) : (Block.resetFor cfg : Block ε).rxbuf = List.replicate cfg.n 0 := rfl
@[simp] theorem Block.resetFor_inputs (cfg : Config) : (Block.resetFor cfg : Block ε).inputs = [] := rfl
@[simp] theorem Block.resetFor_outputs (cfg : Config) : (Block.resetFor cfg : Block ε).outputs = [] := rfl
@[simp] theorem Block.resetFor_freeDraws (cfg : Config) : (Block.resetFor cfg : Block ε).freeDraws = 0 := rfl

@[simp] theorem freeBytes_length (k n : Nat) : (freeBytes k n).length = n := by
  induction n generalizing k with
  | zero => rfl
  | succ n ih => simp [freeBytes, ih]

theorem Block.whenIdle_idle {b : Block ε} (h : b.phase = .idle) (k : Block ε → BlockResult ε) : b.whenIdle k = k b := by
  simp [Block.whenIdle, h]

theorem Block.whenIdle_waitXfer {b : Block ε} (h : b.phase = .waitXfer) (k : Block ε → BlockResult ε) :
    b.whenIdle k = .next b := by
  simp [Block.whenIdle, h]

@[simp] theorem mapNext_next {σ τ φ ρ : Type} (f : σ → τ) (s : σ) :
    mapNext (φ := φ) (ρ := ρ) f (.next s) = .next (f s) := rfl
@[simp] theorem mapNext_fault {σ τ φ ρ : Type} (f : σ → τ) (r : φ) :
    mapNext (ρ := ρ) f (.fault r) = .fault r := rfl
@[simp] theorem mapNext_refused {σ τ φ ρ : Type} (f : σ → τ) (r : ρ) :
    mapNext (φ := φ) f (.refused r) = .refused r := rfl

@[simp] theorem State.resetFor_cfg (cfg : Config) : (State.resetFor cfg).cfg = cfg := rfl
@[simp] theorem State.resetFor_toBlock (cfg : Config) : (State.resetFor cfg).toBlock = Block.resetFor cfg := rfl

@[simp] theorem Block.configured_cfg (cfg : Config) (b : Block PeriphErr) : (b.configured cfg).cfg = cfg := rfl
@[simp] theorem Block.configured_toBlock (cfg : Config) (b : Block PeriphErr) : (b.configured cfg).toBlock = b := rfl
@[simp] theorem State.toBlock_configured (s : State) : s.toBlock.configured s.cfg = s := rfl

/-- An operation goes on in the host's interface exactly when it goes on, beside the same configuration. -/
theorem State.onBlock_next {operation : Config → Block PeriphErr → BlockResult PeriphErr} {s t : State} :
    s.onBlock operation = .next t ↔ operation s.cfg s.toBlock = .next t.toBlock ∧ t.cfg = s.cfg := by
  unfold State.onBlock
  constructor
  · intro h
    cases ho : operation s.cfg s.toBlock with
    | next b => rw [ho] at h; cases h; exact ⟨rfl, rfl⟩
    | fault r => cases r
    | refused r => rw [ho] at h; cases h
  · rintro ⟨h, hc⟩
    rw [h, ← hc]; rfl

/-- And it is refused exactly when it is refused, with the same refusal. -/
theorem State.onBlock_refused {operation : Config → Block PeriphErr → BlockResult PeriphErr} {s : State} {r : Refusal} :
    s.onBlock operation = .refused r ↔ operation s.cfg s.toBlock = .refused r := by
  unfold State.onBlock
  cases operation s.cfg s.toBlock <;> simp [mapNext]

/-- The two tables of instructions are one: `exec` is the machine's instruction in the host's interface. -/
theorem exec_eq_onBlock (i : Instr) (s : State) : exec i s = s.onBlock fun cfg b => b.exec cfg i := by
  cases i <;> rfl

theorem step_eq_onBlock (s : State) : step s = s.onBlock stepFor := rfl

end Sys2Proof.Machine
end

