-- ==== Sys2Proof/Laws/Ops.lean ====
section
/-! SUPPORT. What each shared operation can do, said once: acceptance, emission of a frame, completion, and the meanings. -/

namespace Sys2Proof.Machine

variable {ε : Type}

/-- An accept step always ends, in an error response or in a `Transfer`. -/
theorem Block.accept_cases (b : Block ε) (c : Except RequestError (List Byte)) :
    (∃ e, c = .error e ∧ b.accept c = .next (b.raise e)) ∨ (∃ tx, c = .ok tx ∧ b.accept c = .next (b.issue tx)) := by
  cases c with
  | error e => exact .inl ⟨e, rfl, rfl⟩
  | ok tx => exact .inr ⟨tx, rfl, rfl⟩

theorem Block.emitFrame_of_emitted {cfg : Config} {m : Model} {addr : Nat} (hm : cfg.model? = some m) (ha : addr < cfg.count)
    (mode : Mode) (b : Block ε) :
    b.emitFrame cfg m mode addr = .next (b.issue (serialize cfg (encodeFrame cfg mode addr))) := by
  simp [Block.emitFrame, hm, ha, Block.accept]

theorem Block.emitFrame_of_not_emitted {cfg : Config} {m : Model} {addr : Nat}
    (h : ¬ (cfg.model? = some m ∧ addr < cfg.count)) (mode : Mode) (b : Block ε) :
    b.emitFrame cfg m mode addr = .refused (.frameNotEmitted m addr) := by
  simp only [Block.emitFrame, if_neg h]

/-- If a frame's emission answers next, it issued that frame, one the block may emit. -/
theorem Block.emitFrame_next {cfg : Config} {b b' : Block ε} {m : Model} {mode : Mode} {addr : Nat}
    (h : b.emitFrame cfg m mode addr = .next b') :
    cfg.model? = some m ∧ addr < cfg.count ∧ b' = b.issue (serialize cfg (encodeFrame cfg mode addr)) := by
  by_cases hc : cfg.model? = some m ∧ addr < cfg.count
  · rw [Block.emitFrame_of_emitted hc.1 hc.2] at h
    exact ⟨hc.1, hc.2, by injection h with h; exact h.symm⟩
  · rw [Block.emitFrame_of_not_emitted hc] at h; cases h

/-- The response of an `Ok` answer: a Reading below 2^R, a framing error from there on (R141, R164). -/
theorem answerResponse_eq (cfg : Config) (rx : List Byte) :
    (answerResponse cfg rx : Response ε) =
      if assemble rx < 2 ^ cfg.r then
        { status := .ok, value := assemble rx, range := 2 ^ cfg.r - 1, denom := cfg.denom, errA := 0, errB := 0, periph := none }
      else { status := .framing, value := 0, range := 0, denom := 0, errA := 0, errB := 0, periph := none } := by
  unfold answerResponse decodeAnswer framingCheck
  by_cases h : assemble rx < 2 ^ cfg.r
  · rw [if_neg (Nat.not_le.mpr h), if_pos h]; rfl
  · rw [if_pos (Nat.not_lt.mp h), if_neg h]; rfl

/-- An `Ok` answer of another length than N is refused (R41). -/
theorem Block.complete_of_length_ne {cfg : Config} {rx : List Byte} (h : rx.length ≠ cfg.n) (b : Block ε) :
    b.complete cfg (.ok rx) = .refused (.answerLength rx.length cfg.n) := if_neg h

/-- An `Ok` answer of N bytes ends the transaction in its response (R164). -/
theorem Block.complete_of_length_eq {cfg : Config} {rx : List Byte} (h : rx.length = cfg.n) (b : Block ε) :
    b.complete cfg (.ok rx) = .next ({ b with rxbuf := rx }.finish (answerResponse cfg rx)) := if_pos h

/-- If a completion step answers next, the transaction ended in one of its three responses, at `IDLE` (R164, R165). -/
theorem Block.complete_next {cfg : Config} {b b' : Block ε} {a : Answer ε} (h : b.complete cfg a = .next b') :
    (∃ e, a = .err e ∧ b' = b.finish (peripheralResponse e)) ∨
      (∃ rx, a = .ok rx ∧ rx.length = cfg.n ∧ b' = { b with rxbuf := rx }.finish (answerResponse cfg rx)) := by
  cases a with
  | err e => exact .inl ⟨e, rfl, by injection h with h; exact h.symm⟩
  | ok rx =>
    by_cases hl : rx.length = cfg.n
    · rw [Block.complete_of_length_eq hl] at h
      exact .inr ⟨rx, rfl, hl, by injection h with h; exact h.symm⟩
    · rw [Block.complete_of_length_ne hl] at h; cases h

/-- What an instruction does when it answers next: it is held; or its transaction ends in a request error; or it issues a frame
the block may emit. -/
def ExecNext (cfg : Config) (b b' : Block ε) : Prop :=
  (b.phase = .waitXfer ∧ b' = b) ∨
    (b.phase = .idle ∧ ((∃ e, b' = b.raise e) ∨
      ∃ mode addr, addr < cfg.count ∧ b' = b.issue (serialize cfg (encodeFrame cfg mode addr))))

/-- What any instruction is: held in `WAIT_XFER`, and in `IDLE` an accept step of some checks and encoding, which gives only
frames the block may emit, or the emission of a frame. -/
inductive InstrForm (cfg : Config) (i : Instr) : Prop where
  | request (c : Except RequestError (List Byte))
      (emits : ∀ tx, c = .ok tx → ∃ mode addr, addr < cfg.count ∧ tx = serialize cfg (encodeFrame cfg mode addr))
      (is : ∀ {ε : Type} (b : Block ε), b.exec cfg i = b.whenIdle (Block.accept c))
  | frame (m : Model) (mode : Mode) (addr : Nat)
      (is : ∀ {ε : Type} (b : Block ε), b.exec cfg i = b.whenIdle (Block.emitFrame cfg m mode addr))

/-- The one case split over the instructions. -/
theorem instrForm (cfg : Config) (i : Instr) : InstrForm cfg i := by
  cases i with
  | seRead p =>
    refine .request (singleEndedCommand cfg p) (fun tx htx => ?_) fun b => rfl
    simp only [singleEndedCommand_eq] at htx
    repeat' split at htx
    all_goals cases htx
    exact ⟨_, _, ‹p.toNat < cfg.count›, rfl⟩
  | diffRead p m =>
    refine .request (differentialCommand cfg p m) (fun tx htx => ?_) fun b => rfl
    simp only [differentialCommand_eq] at htx
    repeat' split at htx
    all_goals cases htx
    exact ⟨_, _, ‹p.toNat < cfg.count›, rfl⟩
  | illegal op p m => exact .request (.error (.illegalRequest op m)) (fun tx htx => by cases htx) fun b => rfl
  | seFrameA a => exact .frame _ _ _ fun b => rfl
  | diffFrameA a => exact .frame _ _ _ fun b => rfl
  | seFrameB a => exact .frame _ _ _ fun b => rfl
  | diffFrameB a => exact .frame _ _ _ fun b => rfl
  | seFrameC a => exact .frame _ _ _ fun b => rfl
  | diffFrameC a => exact .frame _ _ _ fun b => rfl
  | seFrameD a => exact .frame _ _ _ fun b => rfl
  | diffFrameD a => exact .frame _ _ _ fun b => rfl
  | seFrameE a => exact .frame _ _ _ fun b => rfl
  | diffFrameE a => exact .frame _ _ _ fun b => rfl
  | seFrameF a => exact .frame _ _ _ fun b => rfl
  | diffFrameF a => exact .frame _ _ _ fun b => rfl
  | seFrameG a => exact .frame _ _ _ fun b => rfl
  | diffFrameG a => exact .frame _ _ _ fun b => rfl
  | seFrameH a => exact .frame _ _ _ fun b => rfl
  | diffFrameH a => exact .frame _ _ _ fun b => rfl

/-- Everything an instruction can do when it answers next. -/
theorem Block.exec_next_cases {cfg : Config} {i : Instr} {b b' : Block ε} (h : b.exec cfg i = .next b') : ExecNext cfg b b' := by
  cases hp : b.phase with
  | waitXfer =>
    have hb : b.exec cfg i = .next b := by
      rcases instrForm cfg i with ⟨_, _, is⟩ | ⟨_, _, _, is⟩ <;> rw [is, Block.whenIdle_waitXfer hp]
    rw [hb] at h
    exact .inl ⟨hp, by injection h with h; exact h.symm⟩
  | idle =>
    refine .inr ⟨hp, ?_⟩
    rcases instrForm cfg i with ⟨c, emits, is⟩ | ⟨m, mode, addr, is⟩
    · rw [is, Block.whenIdle_idle hp] at h
      rcases Block.accept_cases b c with ⟨e, -, he⟩ | ⟨tx, htx, he⟩ <;> rw [he] at h <;> injection h with h <;> subst h
      · exact .inl ⟨e, rfl⟩
      · obtain ⟨mode, addr, ha, rfl⟩ := emits tx htx
        exact .inr ⟨mode, addr, ha, rfl⟩
    · rw [is, Block.whenIdle_idle hp] at h
      exact .inr ⟨mode, addr, (Block.emitFrame_next h).2⟩

/-- In the host's interface, an accept step in `IDLE` answers the error response, or issues the frame. -/
theorem State.onBlock_accept_idle {s : State} (h : s.phase = .idle) (c : Config → Except RequestError (List Byte)) :
    (s.onBlock fun cfg b => b.whenIdle (Block.accept (c cfg))) =
      match c s.cfg with
      | .error e => .next { s with outputs := .response e.response :: s.outputs }
      | .ok tx => .next { s with txbuf := tx, phase := .waitXfer, outputs := .transfer tx :: s.outputs } := by
  show mapNext (Block.configured s.cfg) (s.toBlock.whenIdle (Block.accept (c s.cfg))) = _
  rw [Block.whenIdle_idle h]
  cases c s.cfg <;> rfl

/-- In the host's interface, a frame the block may emit is issued in `IDLE`. -/
theorem State.onBlock_emitFrame_idle {s : State} (h : s.phase = .idle) {m : Model} {addr : Nat} (hm : s.cfg.model? = some m)
    (ha : addr < s.cfg.count) (mode : Mode) :
    (s.onBlock fun cfg b => b.whenIdle (Block.emitFrame cfg m mode addr)) =
      .next { s with
        txbuf := serialize s.cfg (encodeFrame s.cfg mode addr)
        phase := .waitXfer
        outputs := .transfer (serialize s.cfg (encodeFrame s.cfg mode addr)) :: s.outputs } := by
  show mapNext (Block.configured s.cfg) (s.toBlock.whenIdle (Block.emitFrame s.cfg m mode addr)) = _
  rw [Block.whenIdle_idle h, Block.emitFrame_of_emitted hm ha]
  rfl

/-- In the host's interface, a frame the block may not emit is refused in `IDLE`. -/
theorem State.onBlock_emitFrame_refused {s : State} (h : s.phase = .idle) {m : Model} {addr : Nat}
    (hn : ¬ (s.cfg.model? = some m ∧ addr < s.cfg.count)) (mode : Mode) :
    (s.onBlock fun cfg b => b.whenIdle (Block.emitFrame cfg m mode addr)) = .refused (.frameNotEmitted m addr) := by
  show mapNext (Block.configured s.cfg) (s.toBlock.whenIdle (Block.emitFrame s.cfg m mode addr)) = _
  rw [Block.whenIdle_idle h, Block.emitFrame_of_not_emitted hn]
  rfl

/-- In the host's interface, an instruction is held in `WAIT_XFER`. -/
theorem exec_waitXfer {s : State} (h : s.phase = .waitXfer) (i : Instr) : exec i s = .next s := by
  rw [exec_eq_onBlock]
  show mapNext (Block.configured s.cfg) (s.toBlock.exec s.cfg i) = .next s
  rcases instrForm s.cfg i with ⟨_, _, is⟩ | ⟨_, _, _, is⟩ <;> rw [is, Block.whenIdle_waitXfer h] <;> rfl

/-- Everything an instruction can do in the host's interface when it answers next. -/
theorem exec_next_cases {i : Instr} {s t : State} (h : exec i s = .next t) :
    t.cfg = s.cfg ∧ ExecNext s.cfg s.toBlock t.toBlock := by
  rw [exec_eq_onBlock, State.onBlock_next] at h
  exact ⟨h.2, Block.exec_next_cases h.1⟩

end Sys2Proof.Machine
end

