-- ==== Sys2Proof/Laws/Port.lean ====
section
/-! SUPPORT. What the sequencer can choose, and what a step can do. -/

namespace Sys2Proof.Machine

variable {ε : Type}

theorem waitAction_held (held : List PortWord) (l : List (Input ε)) :
    waitAction (held.map Input.present ++ l) = held.foldr Action.holding (waitAction l) := by
  induction held with
  | nil => rfl
  | cons w held ih => simp only [List.map_cons, List.cons_append, waitAction, ih, List.foldr_cons]

theorem holding_stay (held : List PortWord) : held.foldr Action.holding (.stay : Action ε) = .stay := by
  induction held with
  | nil => rfl
  | cons w held ih => rw [List.foldr_cons, ih]; rfl

theorem holding_complete (held : List PortWord) (a : Answer ε) (l : List (Input ε)) :
    held.foldr Action.holding (.complete a l) = .complete a (held.map Input.present ++ l) := by
  induction held with
  | nil => rfl
  | cons w held ih => rw [List.foldr_cons, ih]; rfl

theorem holding_ignore (held : List PortWord) (l : List (Input ε)) :
    held.foldr Action.holding (.ignore l) = .ignore (held.map Input.present ++ l) := by
  induction held with
  | nil => rfl
  | cons w held ih => rw [List.foldr_cons, ih]; rfl

theorem holding_reset (held : List PortWord) (l : List (Input ε)) :
    held.foldr Action.holding (.reset l) = .reset (held.map Input.present ++ l) := by
  induction held with
  | nil => rfl
  | cons w held ih => rw [List.foldr_cons, ih]; rfl

/-- The words held in front of some inputs, and the first input that is no word, if there is one. -/
theorem held_split (l : List (Input ε)) :
    (∃ held : List PortWord, l = held.map Input.present) ∨
      ∃ (held : List PortWord) (x : Input ε) (rest : List (Input ε)), l = held.map Input.present ++ x :: rest ∧ ∀ w, x ≠ .present w := by
  induction l with
  | nil => exact .inl ⟨[], rfl⟩
  | cons x l ih =>
    cases x with
    | present w =>
      rcases ih with ⟨held, rfl⟩ | ⟨held, x, rest, rfl, hx⟩
      · exact .inl ⟨w :: held, rfl⟩
      · exact .inr ⟨w :: held, x, rest, rfl, hx⟩
    | answer a => exact .inr ⟨[], _, l, rfl, by simp⟩
    | lateAnswer a => exact .inr ⟨[], _, l, rfl, by simp⟩
    | reset => exact .inr ⟨[], _, l, rfl, by simp⟩

/-- Everything a waiting block can do next, and with what inputs: it takes no word from a port and drops none (R167). -/
theorem waitAction_cases (l : List (Input ε)) :
    (∃ held : List PortWord, l = held.map Input.present ∧ waitAction l = .stay) ∨
      (∃ (held : List PortWord) (a : Answer ε) (rest : List (Input ε)), l = held.map Input.present ++ .answer a :: rest ∧
        waitAction l = .complete a (held.map Input.present ++ rest)) ∨
      (∃ (held : List PortWord) (a : Answer ε) (rest : List (Input ε)), l = held.map Input.present ++ .lateAnswer a :: rest ∧
        waitAction l = .ignore (held.map Input.present ++ rest)) ∨
      (∃ (held : List PortWord) (rest : List (Input ε)), l = held.map Input.present ++ .reset :: rest ∧
        waitAction l = .reset (held.map Input.present ++ rest)) := by
  rcases held_split l with ⟨held, rfl⟩ | ⟨held, x, rest, rfl, hx⟩
  · refine .inl ⟨held, rfl, ?_⟩
    have h := waitAction_held (ε := ε) held []
    rw [List.append_nil] at h
    rw [h]; exact holding_stay held
  · cases x with
    | present w => exact absurd rfl (hx w)
    | answer a => exact .inr (.inl ⟨held, a, rest, rfl, by rw [waitAction_held]; exact holding_complete held a rest⟩)
    | lateAnswer a => exact .inr (.inr (.inl ⟨held, a, rest, rfl, by rw [waitAction_held]; exact holding_ignore held rest⟩))
    | reset => exact .inr (.inr (.inr ⟨held, rest, rfl, by rw [waitAction_held]; exact holding_reset held rest⟩))

theorem presented_append (l l' : List (Input ε)) : presented (l ++ l') = presented l ++ presented l' := by
  induction l with
  | nil => rfl
  | cons x l ih => cases x <;> simp [presented, ih]

theorem presented_held (held : List PortWord) : presented (held.map (Input.present (ε := ε))) = held := by
  induction held with
  | nil => rfl
  | cons w held ih => simp [presented, ih]

/-- A waiting block takes the answer to its `Transfer` from behind the words held. -/
theorem stepFor_answer {cfg : Config} {b : Block ε} {held : List PortWord} {a : Answer ε} {rest : List (Input ε)}
    (hp : b.phase = .waitXfer) (hi : b.inputs = held.map Input.present ++ .answer a :: rest) :
    stepFor cfg b = (b.withInputs (held.map Input.present ++ rest)).complete cfg a := by
  simp only [stepFor, Block.nextAction, hp, hi, waitAction_held, waitAction, holding_complete, Block.perform]

/-- An idle block takes the word at its port and runs it. -/
theorem stepFor_present {cfg : Config} {b : Block ε} {w : PortWord} {rest : List (Input ε)} (hp : b.phase = .idle)
    (hi : b.inputs = .present w :: rest) : stepFor cfg b = (b.withInputs rest).runWord cfg w := by
  simp only [stepFor, Block.nextAction, hp, hi, idleAction, Block.perform]

/-- Everything a step can do when it answers next: nothing; an answer passes undecoded; a reset, the words held in front of it
staying; the decoded word of a port runs; or the answer to the `Transfer` in flight completes the transaction. -/
theorem stepFor_next_cases {cfg : Config} {b b' : Block ε} (h : stepFor cfg b = .next b') :
    b' = b ∨ (∃ rest, b' = b.withInputs rest) ∨
      (∃ (held : List PortWord) (rest : List (Input ε)), b.inputs = held.map Input.present ++ .reset :: rest ∧
        (b.phase = .idle → held = []) ∧ b' = (b.withInputs (held.map Input.present ++ rest)).resetRunning cfg) ∨
      (b.phase = .idle ∧ ∃ i w rest, b.inputs = .present w :: rest ∧ decode cfg w = .ok i ∧
        (b.withInputs rest).exec cfg i = .next b') ∨
      (b.phase = .waitXfer ∧ ∃ (held : List PortWord) (a : Answer ε) (rest : List (Input ε)),
        b.inputs = held.map Input.present ++ .answer a :: rest ∧
          (b.withInputs (held.map Input.present ++ rest)).complete cfg a = .next b') := by
  unfold stepFor at h
  cases hp : b.phase with
  | idle =>
    simp only [Block.nextAction, hp] at h
    cases hi : b.inputs with
    | nil => simp only [hi, idleAction, Block.perform] at h; injection h with h; exact .inl h.symm
    | cons x l =>
      cases x with
      | present w =>
        simp only [hi, idleAction, Block.perform, Block.runWord] at h
        split at h
        · exact .inr (.inr (.inr (.inl ⟨rfl, _, w, l, rfl, ‹_›, h⟩)))
        · cases h
      | answer a => simp only [hi, idleAction, Block.perform] at h; injection h with h; exact .inr (.inl ⟨l, h.symm⟩)
      | lateAnswer a => simp only [hi, idleAction, Block.perform] at h; injection h with h; exact .inr (.inl ⟨l, h.symm⟩)
      | reset =>
        simp only [hi, idleAction, Block.perform] at h
        injection h with h
        exact .inr (.inr (.inl ⟨[], l, rfl, fun _ => rfl, h.symm⟩))
  | waitXfer =>
    simp only [Block.nextAction, hp] at h
    rcases waitAction_cases b.inputs with ⟨_, _, hw⟩ | ⟨held, a, r, hl, hw⟩ | ⟨_, _, _, _, hw⟩ | ⟨held, r, hl, hw⟩ <;>
      simp only [hw, Block.perform] at h
    · injection h with h; exact .inl h.symm
    · exact .inr (.inr (.inr (.inr ⟨rfl, held, a, r, hl, h⟩)))
    · injection h with h; exact .inr (.inl ⟨_, h.symm⟩)
    · injection h with h; exact .inr (.inr (.inl ⟨held, r, hl, by simp, h.symm⟩))

/-- A step in the host's interface goes on exactly when the machine's step does, with the same configuration. -/
theorem step_next {s t : State} : step s = .next t ↔ stepFor s.cfg s.toBlock = .next t.toBlock ∧ t.cfg = s.cfg :=
  State.onBlock_next

theorem run_succ (M : Host.Core) (k : Nat) (s : M.State) :
    M.run (k + 1) s =
      match M.step s with
      | .next s' => M.run k s'
      | .fault r => .fault r
      | .refused r => .refused r := rfl

/-- A run of one more step (Host.Core.run). -/
theorem core_run_succ_of_next {s t : State} (k : Nat) (h : step s = .next t) : core.run (k + 1) s = core.run k t := by
  have e := run_succ core k s
  rw [show core.step s = .next t from h] at e
  exact e

/-- A run that answers next took its first step, and ran on. -/
theorem core_run_succ_next {s t : State} {k : Nat} (h : core.run (k + 1) s = .next t) :
    ∃ u, step s = .next u ∧ core.run k u = .next t := by
  have e := run_succ core k s
  cases hs : step s with
  | next u =>
    rw [show core.step s = .next u from hs] at e
    exact ⟨u, rfl, e.symm.trans h⟩
  | fault r =>
    rw [show core.step s = .fault r from hs] at e
    exact absurd (e.symm.trans h) (by simp)
  | refused r =>
    rw [show core.step s = .refused r from hs] at e
    exact absurd (e.symm.trans h) (by simp)

end Sys2Proof.Machine
end

