-- ==== Sys2Proof/Laws/Parameters.lean ====
section
/-! SUPPORT. Renaming transport error values: the fields it leaves alone, and that no operation of the machine looks inside one. -/

namespace Sys2Proof.Machine

variable {ε δ : Type}

@[simp] theorem Block.renamePeriph_phase (f : ε → δ) (b : Block ε) : (b.renamePeriph f).phase = b.phase := rfl
@[simp] theorem Block.renamePeriph_txbuf (f : ε → δ) (b : Block ε) : (b.renamePeriph f).txbuf = b.txbuf := rfl
@[simp] theorem Block.renamePeriph_rxbuf (f : ε → δ) (b : Block ε) : (b.renamePeriph f).rxbuf = b.rxbuf := rfl
@[simp] theorem Block.renamePeriph_freeDraws (f : ε → δ) (b : Block ε) : (b.renamePeriph f).freeDraws = b.freeDraws := rfl
@[simp] theorem Block.renamePeriph_inputs (f : ε → δ) (b : Block ε) :
    (b.renamePeriph f).inputs = b.inputs.map (Input.renamePeriph f) := rfl
@[simp] theorem Block.renamePeriph_outputs (f : ε → δ) (b : Block ε) :
    (b.renamePeriph f).outputs = b.outputs.map (Output.renamePeriph f) := rfl

/-- A request error holds no transport error value. -/
@[simp] theorem RequestError.response_renamePeriph (f : ε → δ) (e : RequestError) :
    (e.response : Response ε).renamePeriph f = e.response := by cases e <;> rfl

/-- Nor does the response of an `Ok` answer. -/
@[simp] theorem answerResponse_renamePeriph (f : ε → δ) (cfg : Config) (rx : List Byte) :
    (answerResponse cfg rx : Response ε).renamePeriph f = answerResponse cfg rx := by
  rw [answerResponse_eq, answerResponse_eq]; split <;> rfl

theorem Block.raise_renamePeriph (f : ε → δ) (e : RequestError) (b : Block ε) :
    (b.renamePeriph f).raise e = (b.raise e).renamePeriph f := by
  simp only [Block.raise, Block.respond, Block.renamePeriph, List.map_cons, Output.renamePeriph, RequestError.response_renamePeriph]

theorem Block.accept_renamePeriph (f : ε → δ) (c : Except RequestError (List Byte)) (b : Block ε) :
    (b.renamePeriph f).accept c = mapNext (Block.renamePeriph f) (b.accept c) := by
  cases c with
  | error e => exact congrArg Host.Outcome.next (Block.raise_renamePeriph f e b)
  | ok tx => rfl

theorem Block.whenIdle_renamePeriph (f : ε → δ) {k : Block ε → BlockResult ε} {k' : Block δ → BlockResult δ} (b : Block ε)
    (hk : k' (b.renamePeriph f) = mapNext (Block.renamePeriph f) (k b)) :
    (b.renamePeriph f).whenIdle k' = mapNext (Block.renamePeriph f) (b.whenIdle k) := by
  cases h : b.phase with
  | idle => rw [Block.whenIdle_idle h, Block.whenIdle_idle (b := b.renamePeriph f) h, hk]
  | waitXfer => rw [Block.whenIdle_waitXfer h, Block.whenIdle_waitXfer (b := b.renamePeriph f) h]; rfl

theorem Block.emitFrame_renamePeriph (f : ε → δ) (cfg : Config) (m : Model) (mode : Mode) (addr : Nat) (b : Block ε) :
    (b.renamePeriph f).emitFrame cfg m mode addr = mapNext (Block.renamePeriph f) (b.emitFrame cfg m mode addr) := by
  by_cases h : cfg.model? = some m ∧ addr < cfg.count
  · rw [Block.emitFrame_of_emitted h.1 h.2, Block.emitFrame_of_emitted h.1 h.2]; rfl
  · rw [Block.emitFrame_of_not_emitted h, Block.emitFrame_of_not_emitted h]; rfl

/-- No instruction looks inside a transport error value. -/
theorem Block.exec_renamePeriph (f : ε → δ) (cfg : Config) (i : Instr) (b : Block ε) :
    (b.renamePeriph f).exec cfg i = mapNext (Block.renamePeriph f) (b.exec cfg i) := by
  rcases instrForm cfg i with ⟨c, _, is⟩ | ⟨m, mode, addr, is⟩ <;> rw [is, is]
  · exact Block.whenIdle_renamePeriph f b (Block.accept_renamePeriph f c b)
  · exact Block.whenIdle_renamePeriph f b (Block.emitFrame_renamePeriph f cfg m mode addr b)

theorem Block.complete_renamePeriph (f : ε → δ) (cfg : Config) (a : Answer ε) (b : Block ε) :
    (b.renamePeriph f).complete cfg (a.renamePeriph f) = mapNext (Block.renamePeriph f) (b.complete cfg a) := by
  cases a with
  | err e => rfl
  | ok rx =>
    show (b.renamePeriph f).complete cfg (.ok rx) = _
    by_cases h : rx.length = cfg.n
    · rw [Block.complete_of_length_eq h, Block.complete_of_length_eq h, mapNext_next]
      simp only [Block.finish, Block.respond, Block.renamePeriph, List.map_cons, Output.renamePeriph, answerResponse_renamePeriph]
    · rw [Block.complete_of_length_ne h, Block.complete_of_length_ne h, mapNext_refused]

/-- An action with the error values of its answer and of its remaining inputs renamed. -/
def Action.renamePeriph (f : ε → δ) : Action ε → Action δ
  | .stay => .stay
  | .accept w rest => .accept w (rest.map (Input.renamePeriph f))
  | .complete a rest => .complete (a.renamePeriph f) (rest.map (Input.renamePeriph f))
  | .ignore rest => .ignore (rest.map (Input.renamePeriph f))
  | .reset rest => .reset (rest.map (Input.renamePeriph f))

theorem idleAction_renamePeriph (f : ε → δ) (l : List (Input ε)) :
    idleAction (l.map (Input.renamePeriph f)) = (idleAction l).renamePeriph f := by
  cases l with
  | nil => rfl
  | cons x l => cases x <;> rfl

theorem waitAction_renamePeriph (f : ε → δ) (l : List (Input ε)) :
    waitAction (l.map (Input.renamePeriph f)) = (waitAction l).renamePeriph f := by
  induction l with
  | nil => rfl
  | cons x l ih =>
    cases x with
    | present w =>
      show (waitAction (l.map _)).holding w = ((waitAction l).holding w).renamePeriph f
      rw [ih]; cases waitAction l <;> rfl
    | answer a => rfl
    | lateAnswer a => rfl
    | reset => rfl

/-- What a block chooses to do next does not depend on an error value. -/
theorem Block.nextAction_renamePeriph (f : ε → δ) (b : Block ε) :
    (b.renamePeriph f).nextAction = b.nextAction.renamePeriph f := by
  cases h : b.phase <;>
    simp only [Block.nextAction, Block.renamePeriph_phase, Block.renamePeriph_inputs, h, idleAction_renamePeriph,
      waitAction_renamePeriph]

end Sys2Proof.Machine
end

