-- ==== Sys2Proof/Laws/PerInstr.lean ====
section
/-! SUPPORT. The family TablePattern: the word the encoder gives an instruction meets its row of spec/opcode_table.json, its `match`
value under its `mask`. One lemma for each constructor of Instr. -/

namespace Sys2Proof

/-- The word is a request that has the row's match value under its mask. -/
def RequestMatches (w : PortWord) (mask value : Req24) : Prop := ∃ r, w = .request r ∧ r &&& mask = value

/-- The word is a frame of `n` bytes that, read as one number, has the row's match value under its mask. -/
def FrameMatches (w : PortWord) (n mask value : Nat) : Prop :=
  ∃ bytes, w = .frame bytes ∧ bytes.length = n ∧ assemble bytes &&& mask = value

theorem requestWord_and (op p m op' p' m' : Byte) :
    requestWord op p m &&& requestWord op' p' m' = requestWord (op &&& op') (p &&& p') (m &&& m') := by
  have inner : (op ++ p) &&& (op' ++ p') = (op &&& op') ++ (p &&& p') := BitVec.and_append
  have outer : (op ++ p ++ m) &&& (op' ++ p' ++ m') = ((op ++ p) &&& (op' ++ p')) ++ (m &&& m') := BitVec.and_append
  exact outer.trans (congrArg (· ++ (m &&& m')) inner)

@[simp] theorem requestOp_requestWord (op p m : Byte) : requestOp (requestWord op p m) = op := by
  apply BitVec.eq_of_getLsbD_eq
  intro i hi
  simp only [requestOp, requestWord, BitVec.getLsbD_extractLsb', BitVec.getLsbD_append]
  simp [hi, show ¬ 16 + i < 8 by omega, show 16 + i - 8 - 8 = i by omega, show ¬ 16 + i - 8 < 8 by omega]

@[simp] theorem requestP_requestWord (op p m : Byte) : requestP (requestWord op p m) = p := by
  apply BitVec.eq_of_getLsbD_eq
  intro i hi
  simp only [requestP, requestWord, BitVec.getLsbD_extractLsb', BitVec.getLsbD_append]
  simp [hi, show ¬ 8 + i < 8 by omega]

@[simp] theorem requestM_requestWord (op p m : Byte) : requestM (requestWord op p m) = m := by
  apply BitVec.eq_of_getLsbD_eq
  intro i hi
  simp only [requestM, requestWord, BitVec.getLsbD_extractLsb', BitVec.getLsbD_append]
  simp [hi]

end Sys2Proof

namespace Sys2Proof.Laws.TablePattern

/-- The instruction's encoded word meets its row of the opcode table; for `ILLEGAL`, it meets neither request row. -/
def Statement : Instr → Prop
  | .seRead p => RequestMatches (encode (.seRead p)) 0xFF00FF 0x010000
  | .diffRead p m => RequestMatches (encode (.diffRead p m)) 0xFF0000 0x020000
  | .illegal op p m => (Instr.illegal op p m).wellFormed = true →
    ¬ RequestMatches (encode (.illegal op p m)) 0xFF00FF 0x010000 ∧ ¬ RequestMatches (encode (.illegal op p m)) 0xFF0000 0x020000
  | .seFrameA a => (Instr.seFrameA a).wellFormed = true → FrameMatches (encode (.seFrameA a)) 2 0xEFFF 0x6000
  | .diffFrameA a => (Instr.diffFrameA a).wellFormed = true → FrameMatches (encode (.diffFrameA a)) 2 0xEFFF 0x4000
  | .seFrameB a => (Instr.seFrameB a).wellFormed = true → FrameMatches (encode (.seFrameB a)) 3 0xFF8FFF 0x018000
  | .diffFrameB a => (Instr.diffFrameB a).wellFormed = true → FrameMatches (encode (.diffFrameB a)) 3 0xFF8FFF 0x010000
  | .seFrameC a => (Instr.seFrameC a).wellFormed = true → FrameMatches (encode (.seFrameC a)) 3 0xFF8FFF 0x018000
  | .diffFrameC a => (Instr.diffFrameC a).wellFormed = true → FrameMatches (encode (.diffFrameC a)) 3 0xFF8FFF 0x010000
  | .seFrameD a => (Instr.seFrameD a).wellFormed = true → FrameMatches (encode (.seFrameD a)) 3 0xFFBFFF 0x018000
  | .diffFrameD a => (Instr.diffFrameD a).wellFormed = true → FrameMatches (encode (.diffFrameD a)) 3 0xFFBFFF 0x010000
  | .seFrameE a => (Instr.seFrameE a).wellFormed = true → FrameMatches (encode (.seFrameE a)) 3 0xFE3FFF 0x060000
  | .diffFrameE a => (Instr.diffFrameE a).wellFormed = true → FrameMatches (encode (.diffFrameE a)) 3 0xFE3FFF 0x040000
  | .seFrameF a => (Instr.seFrameF a).wellFormed = true → FrameMatches (encode (.seFrameF a)) 3 0xFE3FFF 0x060000
  | .diffFrameF a => (Instr.diffFrameF a).wellFormed = true → FrameMatches (encode (.diffFrameF a)) 3 0xFE3FFF 0x040000
  | .seFrameG a => (Instr.seFrameG a).wellFormed = true → FrameMatches (encode (.seFrameG a)) 3 0xFC7FFF 0x0C0000
  | .diffFrameG a => (Instr.diffFrameG a).wellFormed = true → FrameMatches (encode (.diffFrameG a)) 3 0xFC7FFF 0x080000
  | .seFrameH a => (Instr.seFrameH a).wellFormed = true → FrameMatches (encode (.seFrameH a)) 3 0xFC7FFF 0x0C0000
  | .diffFrameH a => (Instr.diffFrameH a).wellFormed = true → FrameMatches (encode (.diffFrameH a)) 3 0xFC7FFF 0x080000

theorem frame_matches {n pattern shift addr mask value : Nat}
    (h : (pattern + addr * 2 ^ shift) % 256 ^ n &&& mask = value) :
    FrameMatches (tableFrame n pattern shift addr) n mask value :=
  ⟨_, rfl, toBytes_length _ _, by rw [assemble_toBytes_mod]; exact h⟩

theorem seRead (p : Byte) : Statement (.seRead p) :=
  ⟨_, rfl, by rw [show (0xFF00FF : Req24) = requestWord 0xFF 0 0xFF from rfl, requestWord_and, show p &&& 0 = 0 from BitVec.and_zero]; rfl⟩

theorem diffRead (p m : Byte) : Statement (.diffRead p m) :=
  ⟨_, rfl, by
    rw [show (0xFF0000 : Req24) = requestWord 0xFF 0 0 from rfl, requestWord_and,
      show p &&& 0 = 0 from BitVec.and_zero, show m &&& 0 = 0 from BitVec.and_zero]; rfl⟩

theorem illegal (op p m : Byte) : Statement (.illegal op p m) := by
  intro h
  have ones : ∀ b : Byte, b &&& 0xFF = b := by decide
  simp only [Instr.wellFormed, Bool.and_eq_true, bne_iff_ne, ne_eq, Bool.not_eq_true', Bool.and_eq_false_iff,
    beq_eq_false_iff_ne] at h
  constructor
  · rintro ⟨r, hr, he⟩
    cases hr
    rw [show (0xFF00FF : Req24) = requestWord 0xFF 0 0xFF from rfl, requestWord_and, ones, ones] at he
    have ho := congrArg requestOp he
    have hm := congrArg requestM he
    rw [requestOp_requestWord] at ho
    rw [requestM_requestWord] at hm
    exact h.2.elim (fun k => k (ho.trans (by decide))) (fun k => k (hm.trans (by decide)))
  · rintro ⟨r, hr, he⟩
    cases hr
    rw [show (0xFF0000 : Req24) = requestWord 0xFF 0 0 from rfl, requestWord_and, ones] at he
    have ho := congrArg requestOp he
    rw [requestOp_requestWord] at ho
    exact h.1 (ho.trans (by decide))

theorem seFrameA (a : BitVec 1) : Statement (.seFrameA a) := fun _ => frame_matches (by revert a; decide)

theorem diffFrameA (a : BitVec 1) : Statement (.diffFrameA a) := fun _ => frame_matches (by revert a; decide)

theorem seFrameB (a : BitVec 3) : Statement (.seFrameB a) := fun _ => frame_matches (by revert a; decide)

theorem diffFrameB (a : BitVec 3) : Statement (.diffFrameB a) := fun _ => frame_matches (by revert a; decide)

theorem seFrameC (a : BitVec 3) : Statement (.seFrameC a) := fun _ => frame_matches (by revert a; decide)

theorem diffFrameC (a : BitVec 3) : Statement (.diffFrameC a) := fun _ => frame_matches (by revert a; decide)

theorem seFrameD (a : BitVec 1) : Statement (.seFrameD a) := fun _ => frame_matches (by revert a; decide)

theorem diffFrameD (a : BitVec 1) : Statement (.diffFrameD a) := fun _ => frame_matches (by revert a; decide)

theorem seFrameE (a : BitVec 3) : Statement (.seFrameE a) := fun _ => frame_matches (by revert a; decide)

theorem diffFrameE (a : BitVec 3) : Statement (.diffFrameE a) := fun _ => frame_matches (by revert a; decide)

theorem seFrameF (a : BitVec 3) : Statement (.seFrameF a) := fun _ => frame_matches (by revert a; decide)

theorem diffFrameF (a : BitVec 3) : Statement (.diffFrameF a) := fun _ => frame_matches (by revert a; decide)

theorem seFrameG (a : BitVec 3) : Statement (.seFrameG a) := fun _ => frame_matches (by revert a; decide)

theorem diffFrameG (a : BitVec 3) : Statement (.diffFrameG a) := fun _ => frame_matches (by revert a; decide)

theorem seFrameH (a : BitVec 3) : Statement (.seFrameH a) := fun _ => frame_matches (by revert a; decide)

theorem diffFrameH (a : BitVec 3) : Statement (.diffFrameH a) := fun _ => frame_matches (by revert a; decide)

end Sys2Proof.Laws.TablePattern
end

