-- ==== Sys2Proof/Tests/Slice0.lean ====
section
/-! SUPPORT. The model's own tests. Every expected value is from the spec: its encodings (30_encoding.md, spec/opcode_table.json),
its worked examples and its vectors (95_test_vectors.md), or its rules by hand; none is the model's own answer. -/

namespace Sys2Proof.Tests

open Sys2Proof Sys2Proof.Machine

/-! ## Helpers -/

/-- The next state of an outcome. -/
def nextOf : Result → Option State
  | .next s => some s
  | .fault _ => none
  | .refused _ => none

/-- The refusal of an outcome. -/
def refusalOf : Result → Option Refusal
  | .next _ => none
  | .fault _ => none
  | .refused r => some r

/-- A block of a model, just reset. -/
def block (m : Model) : State := State.resetFor (m.config .resolution .unstated)

/-- A state after something has been done to its block. -/
def after (s : State) (f : Block PeriphErr → Block PeriphErr) : State := (f s.toBlock).configured s.cfg

/-- A state with other inputs. -/
def given (s : State) (inputs : List (Input PeriphErr)) : State := { s with inputs := inputs }

/-- A block of a model that waits for the answer to a `Transfer` of `tx`. -/
def waiting (m : Model) (tx : List Byte) : State := after (block m) (Block.issue tx)

/-- A completion step. -/
def complete (s : State) (a : Answer PeriphErr) : Result := s.onBlock fun cfg => Block.complete cfg a

/-- The `RSP64` word of the newest output, if it is a response. -/
def newestWord (s : State) : Option Rsp64 :=
  match s.outputs with
  | .response r :: _ => some r.word
  | .transfer _ :: _ => none
  | [] => none

/-- The newest `Transfer`. -/
def newestTransfer (s : State) : Option (List Byte) :=
  match s.outputs with
  | .transfer tx :: _ => some tx
  | .response _ :: _ => none
  | [] => none

/-- The instruction a word decodes to on a model. -/
def decodeOn (m : Model) (w : PortWord) : Option Instr := (decode (m.config .resolution .unstated) w).toOption

/-! ## Well-formedness: an ill-formed term for each check -/

/-- `OP` = 2 is `DIFF_READ` (R71). -/
theorem test_illegal_with_op_two_refused : (Instr.illegal 2 0 0).wellFormed = false := by decide
/-- `OP` = 1 with `M` = 0 is `SE_READ` (R72). -/
theorem test_illegal_with_op_one_and_m_zero_refused : (Instr.illegal 1 5 0).wellFormed = false := by decide
theorem test_illegal_with_op_one_and_m_nonzero_accepted : (Instr.illegal 1 5 1).wellFormed = true := by decide
theorem test_seFrameB_address_four_refused : (Instr.seFrameB 4).wellFormed = false := by decide
theorem test_diffFrameB_address_four_refused : (Instr.diffFrameB 4).wellFormed = false := by decide
theorem test_seFrameE_address_four_refused : (Instr.seFrameE 4).wellFormed = false := by decide
theorem test_diffFrameE_address_four_refused : (Instr.diffFrameE 4).wellFormed = false := by decide
theorem test_seFrameG_address_four_refused : (Instr.seFrameG 4).wellFormed = false := by decide
theorem test_diffFrameG_address_four_refused : (Instr.diffFrameG 4).wellFormed = false := by decide

/-! ## Decoding: for every constructor, a word written out from the spec's encoding -/

/-- OP = 00000001, P = 00000011, M = 00000000 (R70). -/
theorem test_decode_seRead : decodeOn .F (.request 0b000000010000001100000000) = some (.seRead 3) := by decide
/-- OP = 00000010, P = 00000010, M = 00000100 (R70). -/
theorem test_decode_diffRead : decodeOn .F (.request 0b000000100000001000000100) = some (.diffRead 2 4) := by decide
/-- A reserved OP, 00000011 (R71, R72). -/
theorem test_decode_illegal_op : decodeOn .F (.request 0b000000110000000100000010) = some (.illegal 3 1 2) := by decide
/-- SE_READ with M = 1 (R72). -/
theorem test_decode_illegal_m : decodeOn .F (.request 0b000000010000001100000001) = some (.illegal 1 3 1) := by decide
/-- 0 1 1 a 00 0000000000 with a = 1 (R67, model A). -/
theorem test_decode_seFrameA : decodeOn .A (.frame [0b01110000, 0b00000000]) = some (.seFrameA 1) := by decide
theorem test_decode_diffFrameA : decodeOn .A (.frame [0b01010000, 0b00000000]) = some (.diffFrameA 1) := by decide
/-- 0000000 1 1 aaa 00 0000000000 with a = 011 (R67, model B). -/
theorem test_decode_seFrameB : decodeOn .B (.frame [0b00000001, 0b10110000, 0b00000000]) = some (.seFrameB 3) := by decide
theorem test_decode_diffFrameB : decodeOn .B (.frame [0b00000001, 0b00010000, 0b00000000]) = some (.diffFrameB 1) := by decide
theorem test_decode_seFrameC : decodeOn .C (.frame [0b00000001, 0b11100000, 0b00000000]) = some (.seFrameC 6) := by decide
theorem test_decode_diffFrameC : decodeOn .C (.frame [0b00000001, 0b01000000, 0b00000000]) = some (.diffFrameC 4) := by decide
/-- 0000000 1 1 a 00 000000000000 with a = 1 (R67, model D). -/
theorem test_decode_seFrameD : decodeOn .D (.frame [0b00000001, 0b11000000, 0b00000000]) = some (.seFrameD 1) := by decide
theorem test_decode_diffFrameD : decodeOn .D (.frame [0b00000001, 0b01000000, 0b00000000]) = some (.diffFrameD 1) := by decide
/-- 00000 1 1 aaa 00 000000000000 with a = 010 (R67, model E). -/
theorem test_decode_seFrameE : decodeOn .E (.frame [0b00000110, 0b10000000, 0b00000000]) = some (.seFrameE 2) := by decide
theorem test_decode_diffFrameE : decodeOn .E (.frame [0b00000100, 0b11000000, 0b00000000]) = some (.diffFrameE 3) := by decide
theorem test_decode_seFrameF : decodeOn .F (.frame [0b00000110, 0b11000000, 0b00000000]) = some (.seFrameF 3) := by decide
theorem test_decode_diffFrameF : decodeOn .F (.frame [0b00000101, 0b01000000, 0b00000000]) = some (.diffFrameF 5) := by decide
/-- 0000 1 1 aaa 00 0000000000000 with a = 011 (R67, model G). -/
theorem test_decode_seFrameG : decodeOn .G (.frame [0b00001101, 0b10000000, 0b00000000]) = some (.seFrameG 3) := by decide
theorem test_decode_diffFrameG : decodeOn .G (.frame [0b00001001, 0b00000000, 0b00000000]) = some (.diffFrameG 2) := by decide
theorem test_decode_seFrameH : decodeOn .H (.frame [0b00001111, 0b10000000, 0b00000000]) = some (.seFrameH 7) := by decide
theorem test_decode_diffFrameH : decodeOn .H (.frame [0b00001011, 0b00000000, 0b00000000]) = some (.diffFrameH 6) := by decide

/-- A frame without START (R61). -/
theorem test_decode_no_start : decode (Model.F.config .resolution .unstated) (.frame [0x02, 0, 0]) = .error .startOrPad := rfl
/-- A pad bit set above START (R65). -/
theorem test_decode_pad_bit : decode (Model.F.config .resolution .unstated) (.frame [0x0E, 0, 0]) = .error .startOrPad := rfl
/-- SAMPLE set, bit R+1 = 13 (R60, R64). -/
theorem test_decode_sample_bit : decode (Model.F.config .resolution .unstated) (.frame [0x06, 0x20, 0]) = .error .lowFieldSet := rfl
/-- An ADDRESS of 4 on a 4-channel device (R35). -/
theorem test_decode_address_four : decode (Model.E.config .resolution .unstated) (.frame [0x07, 0, 0]) = .error (.addressNotEmitted 4) := rfl
/-- Two bytes on a three-byte device (R67). -/
theorem test_decode_length : decode (Model.F.config .resolution .unstated) (.frame [0x06, 0]) = .error (.frameLength 2) := rfl
/-- (13, 2) is valid but has no row (R27, R160 corner case): START, MODE, ADDRESS at bits 17, 16, 15. -/
theorem test_decode_no_row :
    decode ⟨⟨13, by decide⟩, .two, .resolution, .unstated⟩ (.frame [0x03, 0, 0]) = .error .configurationNotInTable := rfl

/-- The table's first word, at the request port. -/
theorem test_table_word_request : decodeTableWord 24 0x010000 = some (.seRead 0) := by decide
theorem test_table_word_frame : decodeTableWord 16 0x4000 = some (.diffFrameA 0) := by decide
/-- The next step runs the word placed by withFetchWord. -/
theorem test_fetch_word_request :
    ((nextOf (step (State.reset.withFetchWord 24 0x020100))).bind newestTransfer) = some [0x50, 0x00] := by decide
theorem test_fetch_word_frame :
    ((nextOf (step (State.reset.withFetchWord 16 0x7000))).bind newestTransfer) = some [0x70, 0x00] := by decide

/-! ## Validators (95_test_vectors.md section 3) -/

theorem test_resolution_zero_and_sixteen_fail :
    (Resolution.create 0).isOk = false ∧ (Resolution.create 16).isOk = false ∧ (Resolution.create 15).isOk = true := by decide
theorem test_channels_six_and_sixteen_fail :
    (ChannelCount.create 6).isOk = false ∧ (ChannelCount.create 16).isOk = false ∧ (ChannelCount.create 8).isOk = true := by decide
/-- 95_test_vectors.md 1.1, the row of model F; C1: T is 19, not 18. -/
theorem test_model_F_constants :
    (Model.F.config .resolution .unstated).a = 3 ∧ (Model.F.config .resolution .unstated).t = 19 ∧ (Model.F.config .resolution .unstated).n = 3 := by decide
theorem test_model_A_constants :
    (Model.A.config .resolution .unstated).a = 1 ∧ (Model.A.config .resolution .unstated).t = 15 ∧ (Model.A.config .resolution .unstated).n = 2 := by decide
theorem test_construct_outside_table : (State.construct 13 2 .resolution .unstated).isOk = true ∧ configValid 13 6 = false := by decide

/-! ## Accept steps (95_test_vectors.md sections 2, 3 and 6) -/

theorem test_seRead_transfer : ((nextOf (exec (.seRead 3) (block .F))).bind newestTransfer) = some [0x06, 0xC0, 0x00] := by decide
theorem test_seRead_eight : ((nextOf (exec (.seRead 8) (block .F))).bind newestWord) = some 0x2000000000000800 := by decide
theorem test_diffRead_transfer : ((nextOf (exec (.diffRead 3 2) (block .G))).bind newestTransfer) = some [0x09, 0x80, 0x00] := by decide
/-- C5: channel validation before the pair table. -/
theorem test_diffRead_unsupported_before_pair :
    ((nextOf (exec (.diffRead 4 5) (block .B))).bind newestWord) = some 0x4000000000000400 := by decide
theorem test_illegal_response : ((nextOf (exec (.illegal 3 1 2) (block .F))).bind newestWord) = some 0xC000000000000302 := by decide
theorem test_seFrameA : ((nextOf (exec (.seFrameA 1) (block .A))).bind newestTransfer) = some [0x70, 0x00] := by decide
theorem test_diffFrameA : ((nextOf (exec (.diffFrameA 0) (block .A))).bind newestTransfer) = some [0x40, 0x00] := by decide
theorem test_seFrameB : ((nextOf (exec (.seFrameB 1) (block .B))).bind newestTransfer) = some [0x01, 0x90, 0x00] := by decide
theorem test_diffFrameB : ((nextOf (exec (.diffFrameB 3) (block .B))).bind newestTransfer) = some [0x01, 0x30, 0x00] := by decide
theorem test_seFrameC : ((nextOf (exec (.seFrameC 5) (block .C))).bind newestTransfer) = some [0x01, 0xD0, 0x00] := by decide
theorem test_diffFrameC : ((nextOf (exec (.diffFrameC 7) (block .C))).bind newestTransfer) = some [0x01, 0x70, 0x00] := by decide
theorem test_seFrameD : ((nextOf (exec (.seFrameD 0) (block .D))).bind newestTransfer) = some [0x01, 0x80, 0x00] := by decide
theorem test_diffFrameD : ((nextOf (exec (.diffFrameD 1) (block .D))).bind newestTransfer) = some [0x01, 0x40, 0x00] := by decide
theorem test_seFrameE : ((nextOf (exec (.seFrameE 3) (block .E))).bind newestTransfer) = some [0x06, 0xC0, 0x00] := by decide
theorem test_diffFrameE : ((nextOf (exec (.diffFrameE 1) (block .E))).bind newestTransfer) = some [0x04, 0x40, 0x00] := by decide
theorem test_seFrameF : ((nextOf (exec (.seFrameF 4) (block .F))).bind newestTransfer) = some [0x07, 0x00, 0x00] := by decide
theorem test_diffFrameF : ((nextOf (exec (.diffFrameF 7) (block .F))).bind newestTransfer) = some [0x05, 0xC0, 0x00] := by decide
theorem test_seFrameG : ((nextOf (exec (.seFrameG 2) (block .G))).bind newestTransfer) = some [0x0D, 0x00, 0x00] := by decide
theorem test_diffFrameG : ((nextOf (exec (.diffFrameG 1) (block .G))).bind newestTransfer) = some [0x08, 0x80, 0x00] := by decide
theorem test_seFrameH : ((nextOf (exec (.seFrameH 6) (block .H))).bind newestTransfer) = some [0x0F, 0x00, 0x00] := by decide
theorem test_diffFrameH : ((nextOf (exec (.diffFrameH 5) (block .H))).bind newestTransfer) = some [0x0A, 0x80, 0x00] := by decide
theorem test_frame_of_another_model_refused :
    refusalOf (exec (.seFrameA 0) (block .F)) = some (.frameNotEmitted .A 0) := by decide

/-! ## Completion steps (95_test_vectors.md sections 4 and 6) -/

theorem test_complete_reading :
    ((nextOf (complete (waiting .F [6, 0xC0, 0]) (.ok [0x00, 0x08, 0x00]))).bind newestWord) = some 0x020007FF8FFF0000 := by decide
/-- C2: only bit R set is a framing error. -/
theorem test_complete_framing_at_bit_R :
    ((nextOf (complete (waiting .A [0x50, 0]) (.ok [0x04, 0x00]))).bind newestWord) = some 0xA000000000000000 := by decide
theorem test_complete_peripheral :
    ((nextOf (complete (waiting .A [0x40, 0]) (.err ⟨7⟩))).bind newestWord) = some 0x8000000000000000 := by decide
/-- 95_test_vectors.md program 3, line 1 in mode SOURCE_FIXED. -/
theorem test_complete_source_fixed :
    ((nextOf (complete (after (State.resetFor (Model.H.config .sourceFixed .unstated)) (Block.issue [0x0F, 0x80, 0])) (.ok [0x00, 0x1F, 0xFF]))).bind
      newestWord) = some 0x07FFCFFF8FFF0000 := by decide
/-- A word presented to a waiting block is held; the answer behind it is taken (R167). -/
theorem test_wait_holds_request :
    (nextOf (step (given (waiting .F [6, 0xC0, 0]) [.present (.request 0x010000), .answer (.ok [0, 0, 0])]))).map (·.inputs) =
      some [.present (.request 0x010000)] := by decide
/-- A reset abandons the transaction, with no response (R241). -/
theorem test_reset_in_wait :
    (nextOf (step (given (waiting .F [6, 0xC0, 0]) [.reset]))).map (fun s => (s.phase, s.outputs.length)) =
      some (.idle, 1) := by decide

/-! ## Witnesses: for each statement with hypotheses, a state and operands that meet them all, each clause at a boundary -/

theorem test_witness_ResolutionCreate :
    ((0 : Nat) = 0 ∨ 16 ≤ 0) ∧ ((16 : Nat) = 0 ∨ 16 ≤ 16) ∧ ((1 : Nat) ≤ 1 ∧ 1 ≤ 15) ∧ ((1 : Nat) ≤ 15 ∧ 15 ≤ 15) := by decide
theorem test_witness_ChannelsCreate :
    ((8 : Nat) = 2 ∨ 8 = 4 ∨ 8 = 8) ∧ ¬ ((16 : Nat) = 2 ∨ 16 = 4 ∨ 16 = 8) := by decide
theorem test_witness_DerivedConstants :
    (block .F).cfg.denomMode = .resolution ∧ (Model.H.config .sourceFixed .unstated).denomMode = .sourceFixed := by decide
theorem test_witness_Construct :
    ((1 ≤ 15 ∧ 15 ≤ 15) ∧ (2 = 2 ∨ 2 = 4 ∨ 2 = 8)) ∧ ¬ (1 ≤ 16 ∧ 16 ≤ 15) ∧
      ((1 ≤ 1 ∧ 1 ≤ 15) ∧ ¬ (6 = 2 ∨ 6 = 4 ∨ 6 = 8)) := by decide
/-- The hypothesis of both statements about the frame, at the largest address of a 1-bit and of a 3-bit field. -/
theorem test_witness_FrameFields : 1 < 2 ^ (block .A).cfg.a ∧ 7 < 2 ^ (block .H).cfg.a := by decide
theorem test_witness_Serialize : 2 ^ 19 - 1 < 2 ^ (block .F).cfg.t ∧ 23 < 8 * (block .F).cfg.n := by decide
theorem test_witness_DecodeEncode :
    (Instr.seFrameB 3).wellFormed = true ∧ (Instr.seFrameB 3).frameParts = some (.B, .singleEnded, 3) ∧
      (block .B).cfg.model? = some .B := by decide
theorem test_witness_EncodeDecode : decode (block .F).cfg (.frame [0x07, 0xC0, 0]) = .ok (.seFrameF 7) := rfl
theorem test_witness_ResponseWord :
    ∃ r : Response PeriphErr, r.value = 2 ^ 15 - 1 ∧ r.value < 2 ^ 15 ∧ r.range < 2 ^ 15 ∧ r.denom < 2 ^ 15 :=
  ⟨⟨.ok, 2 ^ 15 - 1, 2 ^ 15 - 1, 4095, 0, 0, none⟩, by decide⟩
theorem test_witness_SeReadSupported : (block .E).phase = .idle ∧ (3 : Byte).toNat < (block .E).cfg.count := by decide
theorem test_witness_SeReadBadChannel :
    (block .E).phase = .idle ∧ 8 ≤ (8 : Byte).toNat ∧ ((block .E).cfg.count ≤ (4 : Byte).toNat ∧ (4 : Byte).toNat ≤ 7) ∧
      ((block .E).cfg.count ≤ (7 : Byte).toNat ∧ (7 : Byte).toNat ≤ 7) := by decide
theorem test_witness_DiffReadLegalPair :
    (block .E).phase = .idle ∧ (3 : Byte).toNat < (block .E).cfg.count ∧
      ((3 : Byte), (2 : Byte)) ∈ [((0 : Byte), (1 : Byte)), (1, 0), (2, 3), (3, 2), (4, 5), (5, 4), (6, 7), (7, 6)] := by decide
theorem test_witness_DiffReadFirstFailingCheck :
    (block .E).phase = .idle ∧ 8 ≤ (8 : Byte).toNat ∧ ((7 : Byte).toNat ≤ 7 ∧ 8 ≤ (8 : Byte).toNat) ∧
      ((4 : Byte).toNat ≤ 7 ∧ (7 : Byte).toNat ≤ 7 ∧ (block .E).cfg.count ≤ (4 : Byte).toNat) ∧
      ((3 : Byte).toNat < (block .E).cfg.count ∧ (4 : Byte).toNat ≤ 7 ∧ (block .E).cfg.count ≤ (4 : Byte).toNat) ∧
      ((1 : Byte).toNat < (block .E).cfg.count ∧ (2 : Byte).toNat < (block .E).cfg.count ∧
        ((1 : Byte), (2 : Byte)) ∉ [((0 : Byte), (1 : Byte)), (1, 0), (2, 3), (3, 2), (4, 5), (5, 4), (6, 7), (7, 6)]) := by decide
theorem test_witness_IllegalRequest : (block .F).phase = .idle := by decide
theorem test_witness_WaitingBlock : (waiting .F [6, 0, 0]).phase = .waitXfer := by decide
theorem test_witness_InstructionFrame : exec (.seRead 3) (block .F) = .next (after (block .F) (Block.issue [0x06, 0xC0, 0x00])) := rfl
/-- The statements on frames: every model is some configuration, and 3 is the last address of the 4-channel models. -/
theorem test_witness_Frames :
    (∀ m : Model, (block m).phase = .idle ∧ (block m).cfg.model? = some m) ∧ (3 : BitVec 3).toNat < 4 :=
  ⟨fun m => by cases m <;> decide, by decide⟩
theorem test_witness_FramesNeverEmitted :
    (Instr.seFrameE 4).frameParts = some (.E, .singleEnded, 4) ∧ (block .E).cfg.count ≤ 4 ∧
      (Instr.diffFrameA 1).frameParts = some (.A, .differential, 1) ∧ (block .E).cfg.model? ≠ some .A := by decide
theorem test_witness_ReadIsItsFrame :
    (block .G).cfg.model? = some .G ∧ (3 : Byte).toNat < (block .G).cfg.count ∧ (2 : Byte) = 3 ^^^ 1 := by decide
/-- The hypotheses of the three statements on an answer, with a held word; 0x0FFF and 0x1000 are the two sides of 2^R. -/
theorem test_witness_Answers :
    (given (waiting .F [6, 0, 0]) ([PortWord.request 0x010000].map Input.present ++ .answer (.ok [0, 0x0F, 0xFF]) :: [])).inputs =
        [PortWord.request 0x010000].map Input.present ++ .answer (.ok [0, 0x0F, 0xFF]) :: [] ∧
      ([0, 0x0F, 0xFF] : List Byte).length = (waiting .F [6, 0, 0]).cfg.n ∧
      assemble [0, 0x0F, 0xFF] < 2 ^ (waiting .F [6, 0, 0]).cfg.r ∧ 2 ^ (waiting .F [6, 0, 0]).cfg.r ≤ assemble [0, 0x10, 0x00] ∧
      ([0, 0] : List Byte).length ≠ (waiting .F [6, 0, 0]).cfg.n := by decide
theorem test_witness_TransportError :
    (waiting .F [6, 0, 0]).phase = .waitXfer ∧
      (given (waiting .F [6, 0, 0]) [.answer (.err ⟨3⟩)]).inputs = ([] : List PortWord).map Input.present ++ .answer (.err ⟨3⟩) :: [] := by
  decide
theorem test_witness_Fraction :
    decodeAnswer (Model.H.config .sourceFixed .unstated) [0x00, 0x1F, 0xFF] = .ok ⟨8191, 8191⟩ ∧
      (Model.H.config .sourceFixed .unstated).denomMode = .sourceFixed ∧
      decodeAnswer (Model.H.config .resolution .unstated) [0x00, 0x1F, 0xFF] = .ok ⟨8191, 8191⟩ ∧
      (Model.H.config .resolution .unstated).denomMode = .resolution := ⟨rfl, rfl, rfl, rfl⟩
theorem test_witness_StepRunsTheDecodedInstruction :
    (block .F).phase = .idle ∧ (given (block .F) [.present (.request 0x010300)]).inputs = .present (.request 0x010300) :: [] ∧
      decode (block .F).cfg (.request 0x010300) = .ok (.seRead 3) ∧
      decode (block .F).cfg (.frame [6]) = .error (.frameLength 1) := ⟨rfl, rfl, rfl, rfl⟩
theorem test_witness_UnansweredTransfer :
    (waiting .E [6, 0x80, 0]).phase = .waitXfer ∧
      (given (waiting .E [6, 0x80, 0]) [.present (.request 0x010000)]).inputs = [PortWord.request 0x010000].map Input.present := by
  decide
theorem test_witness_WaitingBlockKeepsPresentedWords :
    step (given (waiting .E [6, 0x80, 0]) [.present (.request 0x010000)]) =
      .next (given (waiting .E [6, 0x80, 0]) [.present (.request 0x010000)]) := rfl
theorem test_witness_ResetInput :
    (given (waiting .E [6, 0x80, 0]) [.present (.request 0x010000), .reset]).inputs =
        [PortWord.request 0x010000].map Input.present ++ .reset :: [] ∧
      (given (block .E) [.reset]).inputs = ([] : List PortWord).map Input.present ++ .reset :: [] := by decide
theorem test_witness_LateAnswer :
    (waiting .E [6, 0x80, 0]).phase = .waitXfer ∧
      (given (waiting .E [6, 0x80, 0]) [.lateAnswer (.ok [])]).inputs =
        ([] : List PortWord).map Input.present ++ .lateAnswer (.ok []) :: [] ∧
      (block .E).phase = .idle ∧ (given (block .E) [.answer (.err ⟨0⟩)]).inputs = .answer (.err ⟨0⟩) :: [] := by decide
theorem test_witness_RoundTrip :
    (block .F).phase = .idle ∧ (7 : Byte).toNat < (block .F).cfg.count ∧ 4095 < 2 ^ (block .F).cfg.r ∧
      ((block .F).load [.seRead 7, .xferOk (toBytes 3 4095)]).inputs =
        .present (.request (requestWord 1 7 0)) :: .answer (.ok (toBytes (block .F).cfg.n 4095)) :: [] := by decide
theorem test_witness_DifferentialRoundTrip :
    (block .F).phase = .idle ∧ (7 : Byte).toNat < (block .F).cfg.count ∧ 4095 < 2 ^ (block .F).cfg.r ∧
      ((7 : Byte), (6 : Byte)) ∈ [((0 : Byte), (1 : Byte)), (1, 0), (2, 3), (3, 2), (4, 5), (5, 4), (6, 7), (7, 6)] ∧
      ((block .F).load [.diffRead 7 6, .xferOk (toBytes 3 4095)]).inputs =
        .present (.request (requestWord 2 7 6)) :: .answer (.ok (toBytes (block .F).cfg.n 4095)) :: [] := by decide
theorem test_witness_NoRunChangesTheConfiguration : core.run 1 ((block .F).load [.xferErr ⟨0⟩]) = .next (block .F) := rfl
/-- A loaded block meets the invariant, and its step goes on. -/
theorem test_witness_EveryStepKeepsTheInvariant :
    Inv ((block .F).load [.seRead 3]) ∧ step ((block .F).load [.seRead 3]) = .next (after (block .F) (Block.issue [0x06, 0xC0, 0x00])) :=
  ⟨⟨rfl, rfl, trivial, fun h => by cases h⟩, rfl⟩
/-- The same step takes `PHASE` from `IDLE` to `WAIT_XFER`; a completing step takes it back, and so does a reset. -/
theorem test_witness_PhaseChanges :
    (nextOf (step ((block .F).load [.seRead 3]))).map (·.phase) = some .waitXfer ∧
      (nextOf (step ((waiting .F [6, 0xC0, 0]).load [.word 0x010000, .xferOk [0, 8, 0]]))).map (·.phase) = some .idle ∧
      (nextOf (step (given (waiting .F [6, 0xC0, 0]) [.present (.request 0x010000), .reset]))).map (·.phase) = some .idle := by
  decide
/-- Two blocks of one configuration with different histories and buffers, the same word, and a step that goes on. -/
theorem test_witness_TransactionDependsOnlyOnItsInputs :
    let s₁ := (block .F).load [.seRead 3]
    let s₂ := { (block .F).load [.seRead 3, .seRead 4] with txbuf := [1, 2, 3], outputs := [.transfer [6, 0, 0]] }
    s₁.cfg = s₂.cfg ∧ s₁.phase = s₂.phase ∧ s₁.inputs = .present (.request 0x010300) :: [] ∧
      s₂.inputs = .present (.request 0x010300) :: [.present (.request 0x010400)] ∧
      step s₁ = .next (after (block .F) (Block.issue [0x06, 0xC0, 0x00])) := ⟨rfl, rfl, rfl, rfl, rfl⟩
/-- Two waiting blocks, the same answer, and a word held in front of it at one of them; a refused answer as well. -/
theorem test_witness_TransactionDependsOnlyOnItsInputs_answer :
    let s₁ := (waiting .F [6, 0xC0, 0]).load [.xferErr ⟨1⟩]
    let s₂ := (waiting .F [4, 0, 0]).load [.word 0xFF0000, .xferErr ⟨1⟩]
    s₁.cfg = s₂.cfg ∧ s₁.phase = .waitXfer ∧ s₂.phase = .waitXfer ∧
      s₁.inputs = ([] : List PortWord).map Input.present ++ .answer (.err ⟨1⟩) :: [] ∧
      s₂.inputs = [PortWord.request 0xFF0000].map Input.present ++ .answer (.err ⟨1⟩) :: [] ∧
      step s₁ = .next (after (waiting .F [6, 0xC0, 0]) (Block.finish (peripheralResponse ⟨1⟩))) ∧
      step ((waiting .F [6, 0xC0, 0]).load [.xferOk [0]]) = .refused (.answerLength 1 3) := ⟨rfl, rfl, rfl, rfl, rfl, rfl, rfl⟩
/-- The machine of a configuration steps as `step` does; a renamed error value is passed on renamed (R165). -/
theorem test_coreFor_step :
    nextOf (step ((block .F).load [.seRead 3])) =
      (match (coreFor (Model.F.config .resolution .unstated) PeriphErr).step ((block .F).load [.seRead 3]).toBlock with
        | .next b => some (b.configured (Model.F.config .resolution .unstated))
        | .fault _ => none
        | .refused _ => none) := rfl
/-- The machine over another type of error values: the value is passed on unchanged (R165). -/
theorem test_coreFor_error_type :
    (match stepFor (Model.A.config .resolution .unstated) (((waiting .A [0x40, 0]).load [.xferErr ⟨7⟩]).toBlock.renamePeriph fun _ => true) with
      | .next b => b.outputs
      | .fault _ => []
      | .refused _ => []) = [.response (peripheralResponse true), .transfer [0x40, 0]] := by decide
theorem test_witness_OrdinaryInputs :
    ∀ x ∈ ((block .F).load [.word 0xFF0000, .seRead 3, .xferOk [0, 8, 0], .xferErr ⟨0⟩]).inputs, x.ordinary (block .F).cfg = true := by
  decide

end Sys2Proof.Tests
end

section
/-! PROOFS. The state of 10_state.md: what every run of the machine keeps. -/

namespace Sys2Proof.Machine

/-- What every step that goes on keeps, every run that goes on keeps: the induction over the steps of a run. -/
theorem core_run_keeps {P : State → Prop} (step_keeps : ∀ s u, P s → step s = .next u → P u)
    {k : Nat} {s t : State} (hs : P s) (h : core.run k s = .next t) : P t := by
  induction k generalizing s with
  | zero =>
    obtain rfl : s = t := Host.Outcome.next.inj h
    exact hs
  | succ k ih =>
    obtain ⟨u, hstep, hrun⟩ := core_run_succ_next h
    exact ih (step_keeps s u hs hstep) hrun

/-- R26: a step puts back the configuration it was given. -/
theorem step_cfg {s t : State} (h : step s = .next t) : t.cfg = s.cfg := (step_next.mp h).2

/-- Settles O43: having the first state's configuration is kept by every step, so by every run. -/
theorem noRunChangesTheConfiguration : Obligations.NoRunChangesTheConfiguration := by
  intro k s t h
  exact core_run_keeps (P := fun u => u.cfg = s.cfg) (fun _ _ hu hstep => (step_cfg hstep).trans hu) rfl h

end Sys2Proof.Machine
end

section
/-! PROOFS. The bytes of 20_memory.md: the place of each byte in a serialized frame, and the weight of each byte in an answer. -/

namespace Sys2Proof

/-- R42: byte `i` of the `n` is the eight bits of the number from position `8(n-1-i)` up. -/
theorem toBytes_getD {n i : Nat} (v : Nat) (hi : i < n) :
    ((toBytes n v).getD i 0).toNat = v / 2 ^ (8 * (n - 1 - i)) % 2 ^ 8 := by
  induction n generalizing i with
  | zero => omega
  | succ n ih =>
    cases i with
    | zero => simp [toBytes, Nat.shiftRight_eq_div_pow]
    | succ i =>
      rw [toBytes, List.getD_cons_succ, ih (by omega)]
      congr 4
      omega

/-- R44: the shifts of `Assemble` give byte `i` the weight `2^(8(N-1-i))`. -/
theorem assemble_eq_sum (bs : List Byte) :
    assemble bs = ((List.range bs.length).map fun i => (bs.getD i 0).toNat * 2 ^ (8 * (bs.length - 1 - i))).sum := by
  induction bs with
  | nil => rfl
  | cons b bs ih =>
    have weight (i : Nat) : bs.length - 1 - i = bs.length - (i + 1) := by omega
    have head_weight : (256 : Nat) ^ bs.length = 2 ^ (8 * bs.length) := (pow_mul 2 8 bs.length).symm
    rw [List.length_cons, List.range_succ_eq_map, assemble_cons, ih, head_weight]
    simp only [List.map_cons, List.map_map, Function.comp_def, List.sum_cons, List.getD_cons_zero, List.getD_cons_succ,
      Nat.succ_eq_add_one, weight, Nat.add_sub_cancel, Nat.sub_zero]

/-- The N bytes are as few as hold the frame: all but the first lie below its T bits (R24). -/
theorem Config.n_minimal (cfg : Config) : 8 * (cfg.n - 1) ≤ cfg.t := by
  unfold Config.n; omega

end Sys2Proof

namespace Sys2Proof.Machine

theorem assemble_serialize {cfg : Config} {f : Nat} (hf : f < 2 ^ cfg.t) : assemble (serialize cfg f) = f := by
  apply assemble_toBytes
  calc f < 2 ^ cfg.t := hf
    _ ≤ 2 ^ (8 * cfg.n) := Nat.pow_le_pow_right (by decide) cfg.t_le
    _ = 256 ^ cfg.n := pow_mul 2 8 cfg.n

theorem serialize_getD {cfg : Config} {i : Nat} (f : Nat) (hi : i < cfg.n) :
    ((serialize cfg f).getD i 0).toNat = f / 2 ^ (8 * (cfg.n - 1 - i)) % 2 ^ 8 := toBytes_getD f hi

/-- R42: the pad bits, those of the first byte from the T bits of the frame up, are zero. -/
theorem serialize_first_lt {cfg : Config} {f : Nat} (hf : f < 2 ^ cfg.t) :
    ((serialize cfg f).getD 0 0).toNat < 2 ^ (cfg.t - 8 * (cfg.n - 1)) := by
  have top_bits : f / 2 ^ (8 * (cfg.n - 1)) < 2 ^ (cfg.t - 8 * (cfg.n - 1)) := by
    apply Nat.div_lt_of_lt_mul
    rwa [← pow_add, Nat.add_sub_cancel' cfg.n_minimal]
  rw [serialize_getD f cfg.n_bounds.1]
  exact (Nat.mod_le _ _).trans_lt top_bits

/-- Settles O9: the places of the bytes, their weighted sum read back by `Assemble`, and the room in the first byte. -/
theorem serializeIsMostSignificantByteFirst : Obligations.SerializeIsMostSignificantByteFirst := by
  intro cfg f hf
  have weighted_sum := assemble_eq_sum (serialize cfg f)
  rw [assemble_serialize hf, serialize_length] at weighted_sum
  exact ⟨serialize_length cfg f, fun _ => serialize_getD f, weighted_sum.symm, serialize_first_lt hf⟩

/-- Settles O10: the weighted sum by induction on the bytes, the bound from `assemble_lt`. -/
theorem assembleIsTheWeightedSumOfTheBytes : Obligations.AssembleIsTheWeightedSumOfTheBytes := by
  intro rx
  exact ⟨assemble_eq_sum rx, (assemble_lt rx).trans_eq (pow_mul 2 8 rx.length).symm⟩

end Sys2Proof.Machine
end

section
/-! PROOFS. The layout of 30_encoding.md: the place of each field in a command frame. -/

namespace Sys2Proof

/-- R62: MODE at its place, set exactly for single-ended. -/
theorem Mode.bit_shiftLeft_testBit (mode : Mode) (place k : Nat) :
    (mode.bit <<< place).testBit k = decide (place = k ∧ mode = .singleEnded) := by
  cases mode with
  | differential => simp [Mode.bit]
  | singleEnded => simp [Mode.bit, Nat.one_shiftLeft, Nat.testBit_two_pow]

end Sys2Proof

namespace Sys2Proof.Machine

/-- R60: bit `k` of a frame is START's, MODE's or one of ADDRESS. No bound on ADDRESS is needed to read a bit of the union. -/
theorem encodeFrame_testBit (cfg : Config) (mode : Mode) (addr k : Nat) :
    (encodeFrame cfg mode addr).testBit k =
      (decide (cfg.a + cfg.r + 3 = k) || decide (cfg.a + cfg.r + 2 = k ∧ mode = .singleEnded) ||
        decide (cfg.r + 2 ≤ k) && addr.testBit (k - (cfg.r + 2))) := by
  rw [encodeFrame, Nat.testBit_or, Nat.testBit_or, Nat.one_shiftLeft, Nat.testBit_two_pow, Mode.bit_shiftLeft_testBit,
    Nat.testBit_shiftLeft]

/-- R61: START. -/
theorem encodeFrame_start (cfg : Config) (mode : Mode) (addr : Nat) :
    (encodeFrame cfg mode addr).testBit (cfg.t - 1) = true := by
  have start_place : cfg.t - 1 = cfg.a + cfg.r + 3 := by unfold Config.t; omega
  simp [encodeFrame_testBit, start_place]

/-- R62: MODE, the first place above an ADDRESS that fits its field. -/
theorem encodeFrame_mode (cfg : Config) (mode : Mode) {addr : Nat} (h : addr < 2 ^ cfg.a) :
    (encodeFrame cfg mode addr).testBit (cfg.t - 2) = decide (mode = .singleEnded) := by
  have mode_place : cfg.t - 2 = cfg.a + (cfg.r + 2) := by unfold Config.t; omega
  simp [encodeFrame_testBit, mode_place, Nat.add_assoc, Nat.testBit_eq_false_of_lt h]

/-- R63: ADDRESS, below START and MODE. -/
theorem encodeFrame_address (cfg : Config) (mode : Mode) (addr : Nat) {k : Nat} (hk : k < cfg.a) :
    (encodeFrame cfg mode addr).testBit (cfg.r + 2 + k) = addr.testBit k := by
  have below_start : cfg.a + cfg.r + 3 ≠ cfg.r + 2 + k := by omega
  have below_mode : cfg.a + cfg.r + 2 ≠ cfg.r + 2 + k := by omega
  simp [encodeFrame_testBit, below_start, below_mode]

/-- R64: SAMPLE, NULL and the DATA placeholder, below the three fields. -/
theorem encodeFrame_low (cfg : Config) (mode : Mode) (addr : Nat) {k : Nat} (hk : k < cfg.r + 2) :
    (encodeFrame cfg mode addr).testBit k = false := by
  have below_start : cfg.a + cfg.r + 3 ≠ k := by omega
  have below_mode : cfg.a + cfg.r + 2 ≠ k := by omega
  simp [encodeFrame_testBit, below_start, below_mode, hk]

/-- R66: no bit from T up. -/
theorem encodeFrame_high (cfg : Config) (mode : Mode) {addr k : Nat} (h : addr < 2 ^ cfg.a) (hk : cfg.t ≤ k) :
    (encodeFrame cfg mode addr).testBit k = false :=
  Nat.testBit_eq_false_of_lt ((encodeFrame_lt cfg mode h).trans_le (Nat.pow_le_pow_right (by decide) hk))

/-- Settles O7: the places of the fields, each read off the bits of the frame. -/
theorem frameFieldsStandWhereTheLayoutPutsThem : Obligations.FrameFieldsStandWhereTheLayoutPutsThem := by
  intro cfg mode addr h
  exact ⟨encodeFrame_start cfg mode addr, encodeFrame_mode cfg mode h, fun _ => encodeFrame_address cfg mode addr,
    fun _ => encodeFrame_low cfg mode addr, fun _ => encodeFrame_high cfg mode h⟩

end Sys2Proof.Machine
end

section
/-! PROOFS. The validators of 40_validation.md: what each accepts, and the error each gives for any other operand. -/

namespace Sys2Proof

theorem Resolution.create_of_valid {width : Nat} (h : 1 ≤ width ∧ width < 16) :
    Resolution.create width = .ok ⟨width, h⟩ := dif_pos h

theorem Resolution.create_of_not_valid {width : Nat} (h : ¬ (1 ≤ width ∧ width < 16)) :
    Resolution.create width = .error (.resolution width) := dif_neg h

/-- The legal counts are the values of `toNat` (R21). -/
theorem ChannelCount.exists_toNat_eq {count : Nat} (h : count = 2 ∨ count = 4 ∨ count = 8) :
    ∃ ch : ChannelCount, ch.toNat = count := by
  obtain rfl | rfl | rfl := h
  · exact ⟨.two, rfl⟩
  · exact ⟨.four, rfl⟩
  · exact ⟨.eight, rfl⟩

/-- R102: the validator is inverse to `toNat` on the legal counts. -/
@[simp] theorem ChannelCount.create_toNat (ch : ChannelCount) : ChannelCount.create ch.toNat = .ok ch := by
  cases ch <;> rfl

theorem ChannelCount.create_of_not_legal {count : Nat} (h : ¬ (count = 2 ∨ count = 4 ∨ count = 8)) :
    ChannelCount.create count = .error (.channels count) := by
  obtain ⟨not_two, not_four, not_eight⟩ : count ≠ 2 ∧ count ≠ 4 ∧ count ≠ 8 := by simpa only [not_or] using h
  rw [ChannelCount.create, if_neg not_two, if_neg not_four, if_neg not_eight]

end Sys2Proof

namespace Sys2Proof.Machine

/-- Settles O1: a width outside 1 to 15 fails the check, one inside passes it and gives its own width. -/
theorem resolutionCreateAcceptsExactlyOneToFifteen : Obligations.ResolutionCreateAcceptsExactlyOneToFifteen := by
  intro width
  refine ⟨fun outside => Resolution.create_of_not_valid (by omega), fun inside => ?_⟩
  have valid : 1 ≤ width ∧ width < 16 := by omega
  exact ⟨⟨width, valid⟩, Resolution.create_of_valid valid, rfl, rfl⟩

/-- Settles O2: a legal count is the `toNat` of a channel count, which the validator gives back; no other one passes. -/
theorem channelsCreateAcceptsExactlyTwoFourEight : Obligations.ChannelsCreateAcceptsExactlyTwoFourEight := by
  intro count
  refine ⟨fun legal => ?_, ChannelCount.create_of_not_legal⟩
  obtain ⟨ch, rfl⟩ := ChannelCount.exists_toNat_eq legal
  exact ⟨ch, ch.create_toNat, rfl, rfl⟩

end Sys2Proof.Machine
end

section
/-! PROOFS. The configuration of 10_state.md: the derived constants, the table of supported models, construction and reset. -/

namespace Sys2Proof

theorem Config.a_eq (cfg : Config) : cfg.a = if cfg.count = 2 then 1 else 3 := rfl

theorem Config.t_eq (cfg : Config) : cfg.t = cfg.a + cfg.r + 4 := by unfold Config.t; omega

theorem Config.denom_of_resolution {cfg : Config} (h : cfg.denomMode = .resolution) : cfg.denom = 2 ^ cfg.r - 1 := by
  obtain ⟨r, channels, mode, bus⟩ := cfg
  obtain rfl : mode = .resolution := h
  rfl

theorem Config.denom_of_sourceFixed {cfg : Config} (h : cfg.denomMode = .sourceFixed) : cfg.denom = 4095 := by
  obtain ⟨r, channels, mode, bus⟩ := cfg
  obtain rfl : mode = .sourceFixed := h
  rfl

/-- R20: the range of a resolution is not empty. -/
theorem Config.two_le_two_pow_r (cfg : Config) : 2 ≤ 2 ^ cfg.r :=
  Nat.le_self_pow (Nat.ne_of_gt cfg.r_bounds.1) 2

theorem Config.one_le_denom (cfg : Config) : 1 ≤ cfg.denom := by
  cases h : cfg.denomMode with
  | resolution =>
    have := cfg.two_le_two_pow_r
    rw [Config.denom_of_resolution h]; omega
  | sourceFixed => rw [Config.denom_of_sourceFixed h]; decide

/-- R24: N is T / 8 rounded up. -/
theorem Config.n_lower (cfg : Config) : 8 * (cfg.n - 1) < cfg.t := by
  have := cfg.t_eq
  unfold Config.n; omega

theorem ChannelCount.toNat_injective : Function.Injective ChannelCount.toNat := by
  intro c d h
  have created := c.create_toNat
  rw [h, ChannelCount.create_toNat] at created
  exact (Except.ok.inj created).symm

/-- R27: the row of a model is the pair of the table. -/
theorem Config.model?_eq_some_iff (cfg : Config) (m : Model) :
    cfg.model? = some m ↔ cfg.r = (m.config .resolution .unstated).r ∧ cfg.count = (m.config .resolution .unstated).count := by
  constructor
  · intro h
    rw [Config.model?_eq_some h]
    cases m <;> exact ⟨rfl, rfl⟩
  · rintro ⟨hr, hc⟩
    obtain ⟨⟨w, valid⟩, channels, mode, bus⟩ := cfg
    obtain rfl : w = (m.config .resolution .unstated).resolution.width := hr
    obtain rfl : channels = (m.config .resolution .unstated).channels := ChannelCount.toNat_injective hc
    cases m <;> rfl

end Sys2Proof

namespace Sys2Proof.Machine

/-- Settles O3: the constants and their bounds, each by its lemma. -/
theorem derivedConstantsOfEveryConfiguration : Obligations.DerivedConstantsOfEveryConfiguration := by
  intro cfg
  have ⟨a_lower, a_upper⟩ := cfg.a_le_three
  have ⟨r_lower, r_upper⟩ := cfg.r_bounds
  have t_eq := cfg.t_eq
  exact ⟨cfg.a_eq, t_eq, by omega, by omega, cfg.n_lower, cfg.t_le, cfg.n_bounds.1, cfg.n_bounds.2,
    Config.denom_of_resolution, Config.denom_of_sourceFixed, cfg.one_le_denom, cfg.denom_lt⟩

/-- Settles O4: the eight rows of `Config.model?_eq_some_iff`. -/
theorem supportedModelIsItsTableRow : Obligations.SupportedModelIsItsTableRow := by
  intro cfg
  have row := cfg.model?_eq_some_iff
  exact ⟨row .A, row .B, row .C, row .D, row .E, row .F, row .G, row .H⟩

/-- R160: the resolution is checked before the channel count. -/
theorem State.construct_eq (r count : Nat) (mode : DenomMode) (bus : BusParameters) :
    State.construct r count mode bus =
      (Resolution.create r).bind fun res => (ChannelCount.create count).map fun ch => State.resetFor ⟨res, ch, mode, bus⟩ := by
  unfold State.construct Config.create
  cases Resolution.create r with
  | error e => rfl
  | ok res => cases ChannelCount.create count <;> rfl

/-- Settles O5: the two validators decide, the first one's error first. -/
theorem constructBuildsExactlyValidConfigurations : Obligations.ConstructBuildsExactlyValidConfigurations := by
  intro r count mode bus
  rw [State.construct_eq]
  refine ⟨fun ⟨width, legal⟩ => ?_, fun bad_width => ?_, fun ⟨width, bad_count⟩ => ?_⟩
  · obtain ⟨ch, rfl⟩ := ChannelCount.exists_toNat_eq legal
    rw [Resolution.create_of_valid ⟨width.1, by omega⟩, ChannelCount.create_toNat]
    exact ⟨_, rfl, rfl, rfl, rfl, rfl, rfl, rfl, rfl⟩
  · rw [Resolution.create_of_not_valid (by omega)]; rfl
  · rw [Resolution.create_of_valid ⟨width.1, by omega⟩, ChannelCount.create_of_not_legal bad_count]; rfl

/-- R38: the reset state meets the invariant: buffers of N bytes, nothing sent, nothing waited for. -/
theorem State.resetFor_inv (cfg : Config) : Inv (State.resetFor cfg) where
  txLength := List.length_replicate
  rxLength := List.length_replicate
  outputs := trivial
  waiting := nofun

/-- Settles O6: every configuration's reset state, model A's among them. -/
theorem resetStateIsIdleAndMeetsTheInvariant : Obligations.ResetStateIsIdleAndMeetsTheInvariant :=
  ⟨fun cfg => ⟨State.resetFor_inv cfg, rfl, rfl, rfl⟩, Model.A.config .resolution .unstated, rfl, rfl, rfl, rfl⟩

end Sys2Proof.Machine
end

section
/-! PROOFS. The wire of 20_memory.md section 2: the order of the bits. -/

namespace Sys2Proof

/-- R43: a byte leaves with its most significant bit first. -/
theorem byteWireBits_getElem? (b : Byte) {k : Nat} (hk : k < 8) : (byteWireBits b)[k]? = some (b.getLsbD (7 - k)) := by
  interval_cases k <;> rfl

/-- R42, R43: byte order and bit order make one order of all the bits. -/
theorem wireBits_toBytes {n k : Nat} (v : Nat) (hk : k < 8 * n) :
    (wireBits (toBytes n v))[k]? = some (v.testBit (8 * n - 1 - k)) := by
  induction n generalizing k with
  | zero => omega
  | succ n ih =>
    show (byteWireBits _ ++ wireBits (toBytes n v))[k]? = _
    by_cases first_byte : k < 8
    · rw [List.getElem?_append_left first_byte, byteWireBits_getElem? _ first_byte, BitVec.getLsbD_ofNat, Nat.testBit_shiftRight,
        show 8 * n + (7 - k) = 8 * (n + 1) - 1 - k by omega]
      simp [show 7 - k < 8 by omega]
    · rw [List.getElem?_append_right (Nat.not_lt.mp first_byte), ih (by simp [byteWireBits]; omega)]
      congr 2
      simp [byteWireBits]; omega

end Sys2Proof

namespace Sys2Proof.Machine

/-- Settles O11: the wire order of the N bytes of the frame. -/
theorem wireCarriesTheFrameMostSignificantBitFirst : Obligations.WireCarriesTheFrameMostSignificantBitFirst :=
  fun _ f _ _ hk => wireBits_toBytes f hk

end Sys2Proof.Machine
end

section
/-! PROOFS. The response word of 30_encoding.md section 4: the places of its fields, and its reading back. -/

namespace Sys2Proof

/-- Two words side by side, as one number. -/
theorem toNat_append_eq_add {m n : Nat} (x : BitVec m) (y : BitVec n) :
    (x ++ y).toNat = x.toNat * 2 ^ n + y.toNat := by
  rw [BitVec.toNat_append, ← Nat.shiftLeft_add_eq_or_of_lt y.isLt, Nat.shiftLeft_eq]

/-- A field of a word, as a number (R8). -/
theorem extractLsb'_toNat_eq_div {w : Nat} (x : BitVec w) (lo len : Nat) :
    (x.extractLsb' lo len).toNat = x.toNat / 2 ^ lo % 2 ^ len := by
  rw [BitVec.extractLsb'_toNat, Nat.shiftRight_eq_div_pow]

end Sys2Proof

namespace Sys2Proof.Machine

variable {ε : Type}

theorem Status.code_lt (st : Status) : st.code < 7 := by cases st <;> decide

@[simp] theorem Status.ofCode_code (st : Status) : Status.ofCode st.code = some st := by cases st <;> rfl

/-- R74: of the codes of three bits, 7 alone names no status. -/
theorem Status.ofCode_eq_none_iff {code : Nat} (h : code < 8) : Status.ofCode code = none ↔ code = 7 := by
  interval_cases code <;> decide

/-- R73: the fields of `RSP64` at their places. -/
theorem Response.word_toNat (r : Response ε) (hv : r.value < 2 ^ 15) (hr : r.range < 2 ^ 15) (hd : r.denom < 2 ^ 15) :
    r.word.toNat =
      r.status.code * 2 ^ 61 + r.value * 2 ^ 46 + r.range * 2 ^ 31 + r.denom * 2 ^ 16 + r.errA.toNat * 2 ^ 8 + r.errB.toNat := by
  have hs : r.status.code < 2 ^ 3 := r.status.code_lt.trans (by decide)
  simp only [Response.word, toNat_append_eq_add, BitVec.toNat_ofNat, Nat.mod_eq_of_lt hv, Nat.mod_eq_of_lt hr,
    Nat.mod_eq_of_lt hd, Nat.mod_eq_of_lt hs]
  ring

/-- Settles O15: the sum of the fields, with the code of each status. -/
theorem responseWordHoldsItsFieldsInPlace : Obligations.ResponseWordHoldsItsFieldsInPlace := by
  intro ε r hv hr hd
  rw [r.word_toNat hv hr hd]
  cases r.status <;> rfl

/-- Settles O16: each field is read back from its place in the sum. -/
theorem responseWordRoundTrip : Obligations.ResponseWordRoundTrip := by
  intro ε r hv hr hd
  have word := r.word_toNat hv hr hd
  have hs := r.status.code_lt
  have ha := r.errA.isLt
  have hb := r.errB.isLt
  have status : (r.word.extractLsb' 61 3).toNat = r.status.code := by
    rw [extractLsb'_toNat_eq_div]; omega
  have value : (r.word.extractLsb' 46 15).toNat = r.value := by
    rw [extractLsb'_toNat_eq_div]; omega
  have range : (r.word.extractLsb' 31 15).toNat = r.range := by
    rw [extractLsb'_toNat_eq_div]; omega
  have denom : (r.word.extractLsb' 16 15).toNat = r.denom := by
    rw [extractLsb'_toNat_eq_div]; omega
  have errA : r.word.extractLsb' 8 8 = r.errA := by
    apply BitVec.eq_of_toNat_eq
    rw [extractLsb'_toNat_eq_div]; omega
  have errB : r.word.extractLsb' 0 8 = r.errB := by
    apply BitVec.eq_of_toNat_eq
    rw [extractLsb'_toNat_eq_div]; omega
  simp only [Response.ofWord, status, value, range, denom, errA, errB, Status.ofCode_code, Option.map_some]

/-- Settles O17: a word is read as a response unless its top three bits, the status code, are 7. -/
theorem onlyStatusSevenIsNoResponse : Obligations.OnlyStatusSevenIsNoResponse := by
  intro ε w periph
  have code : (w.extractLsb' 61 3).toNat = w.toNat / 2 ^ 61 := by
    have hw := w.isLt
    rw [extractLsb'_toNat_eq_div]; omega
  rw [Response.ofWord, Option.map_eq_none_iff, Status.ofCode_eq_none_iff (w.extractLsb' 61 3).isLt, code]

end Sys2Proof.Machine
end

section
/-! PROOFS. The encodings of 30_encoding.md: a request word is its three fields, a frame its layout, and on both ports decoding and
encoding are inverse. -/

namespace Sys2Proof

/-- R70: a request word is its three fields side by side. -/
@[simp] theorem requestWord_fields (w : Req24) : requestWord (requestOp w) (requestP w) (requestM w) = w := by
  apply BitVec.eq_of_toNat_eq
  simp only [requestWord, requestOp, requestP, requestM, toNat_append_eq_add, extractLsb'_toNat_eq_div]
  have := w.isLt
  omega

/-- R71, R72: a well-formed request is read back from its fields. -/
theorem decodeRequest_requestWord (op p m : Byte) :
    decodeRequest (requestWord op p m) =
      if op = 1 ∧ m = 0 then .seRead p else if op = 2 then .diffRead p m else .illegal op p m := by
  simp only [decodeRequest, requestOp_requestWord, requestP_requestWord, requestM_requestWord]

/-- R70 to R72: every request word is the word of the request it decodes to. -/
theorem encode_decodeRequest (w : Req24) : encode (decodeRequest w) = .request w := by
  conv_rhs => rw [← requestWord_fields w]
  unfold decodeRequest
  split
  case isTrue h => rw [h.1, h.2]; rfl
  case isFalse =>
    split
    case isTrue h => rw [h]; rfl
    case isFalse => rfl

/-- R72: what is left of the request words for `ILLEGAL`. -/
theorem illegal_wellFormed_iff {op p m : Byte} :
    (Instr.illegal op p m).wellFormed = true ↔ op ≠ 2 ∧ ¬ (op = 1 ∧ m = 0) := by
  simp only [Instr.wellFormed, Bool.and_eq_true, bne_iff_ne, Bool.not_eq_true', Bool.and_eq_false_iff, beq_eq_false_iff_ne,
    not_and_or, ne_eq]

theorem decodeRequest_wellFormed (w : Req24) : (decodeRequest w).wellFormed = true := by
  unfold decodeRequest
  split
  case isTrue => rfl
  case isFalse not_read =>
    split
    case isTrue => rfl
    case isFalse not_diff => exact illegal_wellFormed_iff.mpr ⟨not_diff, not_read⟩

/-- R8: the bits of a field. -/
theorem field_testBit (v lo width k : Nat) :
    (field v lo width).testBit k = (decide (k < width) && v.testBit (lo + k)) := by
  rw [field, Nat.testBit_mod_two_pow, Nat.testBit_shiftRight]

theorem field_lt (v lo width : Nat) : field v lo width < 2 ^ width := Nat.mod_lt _ (Nat.two_pow_pos _)

/-- R8: what stands from `lo` up is the field there, below what stands from its end up. -/
theorem shiftRight_eq_add_field (v lo width : Nat) :
    v >>> lo = (v >>> (lo + width)) * 2 ^ width + field v lo width := by
  rw [field, Nat.shiftRight_add, Nat.shiftRight_eq_div_pow (v >>> lo), Nat.div_add_mod']

/-- R62: the field of one bit that `frameMode` reads is the bit of the MODE it answers. -/
theorem frameMode_bit (cfg : Config) (f : Nat) : (frameMode cfg f).bit = field f (cfg.a + cfg.r + 2) 1 := by
  have := field_lt f (cfg.a + cfg.r + 2) 1
  unfold frameMode
  split <;> simp only [Mode.bit] <;> omega

end Sys2Proof

namespace Sys2Proof.Machine

/-! The fields of a frame, read back by the frame decoder. -/

variable (cfg : Config) (mode : Mode)

theorem frameTop_encodeFrame {addr : Nat} (h : addr < 2 ^ cfg.a) : frameTop cfg (encodeFrame cfg mode addr) = 1 := by
  have below_start : mode.bit * 2 ^ (cfg.a + cfg.r + 2) + addr * 2 ^ (cfg.r + 2) < 2 ^ (cfg.a + cfg.r + 3) := by
    have := address_below_mode cfg h
    rw [pow_succ 2 (cfg.a + cfg.r + 2)]
    cases mode <;> simp only [Mode.bit] <;> omega
  rw [frameTop, encodeFrame_eq_sum cfg mode h, Nat.shiftRight_eq_div_pow, Nat.add_assoc,
    Nat.add_div_left _ (Nat.two_pow_pos _), Nat.div_eq_of_lt below_start]

theorem frameMode_encodeFrame {addr : Nat} (h : addr < 2 ^ cfg.a) : frameMode cfg (encodeFrame cfg mode addr) = mode := by
  have mode_bit := encodeFrame_mode cfg mode h
  rw [show cfg.t - 2 = cfg.a + cfg.r + 2 by unfold Config.t; omega, Nat.testBit_eq_decide_div_mod_eq] at mode_bit
  rw [frameMode, field, Nat.shiftRight_eq_div_pow, pow_one]
  cases mode <;> simp_all

theorem frameAddress_encodeFrame {addr : Nat} (h : addr < 2 ^ cfg.a) :
    frameAddress cfg (encodeFrame cfg mode addr) = addr := by
  apply Nat.eq_of_testBit_eq
  intro k
  rw [frameAddress, field_testBit]
  by_cases hk : k < cfg.a
  · rw [encodeFrame_address cfg mode addr hk]; simp [hk]
  · have high := Nat.testBit_eq_false_of_lt (h.trans_le (Nat.pow_le_pow_right (by decide) (Nat.not_lt.mp hk)))
    simp [hk, high]

/-- R64: a field that lies below ADDRESS is zero. -/
theorem field_encodeFrame_low {lo width : Nat} (h : lo + width ≤ cfg.r + 2) (addr : Nat) :
    field (encodeFrame cfg mode addr) lo width = 0 := by
  apply Nat.eq_of_testBit_eq
  intro k
  rw [field_testBit, Nat.zero_testBit]
  by_cases hk : k < width
  · rw [encodeFrame_low cfg mode addr (by omega), Bool.and_false]
  · simp [hk]

/-- R60: a number with START, no pad bit and nothing below ADDRESS is the frame of its MODE and ADDRESS. -/
theorem encodeFrame_fields {cfg : Config} {f : Nat} (top : frameTop cfg f = 1) (sample : frameSample cfg f = 0)
    (null : frameNull cfg f = 0) (data : frameData cfg f = 0) :
    encodeFrame cfg (frameMode cfg f) (frameAddress cfg f) = f := by
  have from_data := shiftRight_eq_add_field f 0 cfg.r
  have from_null := shiftRight_eq_add_field f cfg.r 1
  have from_sample := shiftRight_eq_add_field f (cfg.r + 1) 1
  have from_address := shiftRight_eq_add_field f (cfg.r + 2) cfg.a
  have from_mode := shiftRight_eq_add_field f (cfg.a + cfg.r + 2) 1
  rw [← frameMode_bit, show f >>> (cfg.a + cfg.r + 2 + 1) = 1 from top] at from_mode
  rw [show cfg.r + 2 + cfg.a = cfg.a + cfg.r + 2 by ring, from_mode] at from_address
  rw [show field f (cfg.r + 1) 1 = 0 from sample, from_address] at from_sample
  rw [show field f cfg.r 1 = 0 from null, from_sample] at from_null
  rw [show field f 0 cfg.r = 0 from data, Nat.shiftRight_zero, Nat.zero_add, from_null] at from_data
  rw [frameAddress, encodeFrame_eq_sum cfg _ (field_lt f _ _)]
  conv_rhs => rw [from_data]
  ring

/-- R60 to R67: what the frame decoder answers for a frame of the layout, on a supported model. -/
theorem decodeFrame_serialize {cfg : Config} {m : Model} (hm : cfg.model? = some m) (mode : Mode) {addr : Nat}
    (ha : addr < cfg.count) :
    decodeFrame cfg (serialize cfg (encodeFrame cfg mode addr)) = .ok (frameInstr m mode addr) := by
  have fits : addr < 2 ^ cfg.a := ha.trans_le cfg.count_le_two_pow
  have top := frameTop_encodeFrame cfg mode fits
  have sample : frameSample cfg (encodeFrame cfg mode addr) = 0 := field_encodeFrame_low cfg mode (by omega) addr
  have null : frameNull cfg (encodeFrame cfg mode addr) = 0 := field_encodeFrame_low cfg mode (by omega) addr
  have data : frameData cfg (encodeFrame cfg mode addr) = 0 := field_encodeFrame_low cfg mode (by omega) addr
  have address := frameAddress_encodeFrame cfg mode fits
  simp only [decodeFrame, assemble_serialize (encodeFrame_lt cfg mode fits), serialize_length, top, sample, null, data, address,
    frameMode_encodeFrame cfg mode fits, hm, Nat.not_le.mpr ha, ne_eq, not_true_eq_false, or_self, if_false]

/-- What the frame decoder accepts is a frame the block may emit, as the row of the block's model (R35, R67). -/
theorem decodeFrame_eq_ok {cfg : Config} {bytes : List Byte} {i : Instr} (h : decodeFrame cfg bytes = .ok i) :
    ∃ m mode addr, cfg.model? = some m ∧ addr < cfg.count ∧ bytes = serialize cfg (encodeFrame cfg mode addr) ∧
      i = frameInstr m mode addr := by
  unfold decodeFrame at h
  split at h
  case isTrue => cases h
  case isFalse length =>
  split at h
  case isTrue => cases h
  case isFalse top =>
  split at h
  case isTrue => cases h
  case isFalse low =>
  split at h
  case isTrue => cases h
  case isFalse address =>
  split at h
  case h_1 => cases h
  case h_2 m hm =>
  obtain ⟨sample, null, data⟩ : frameSample cfg (assemble bytes) = 0 ∧ frameNull cfg (assemble bytes) = 0 ∧
      frameData cfg (assemble bytes) = 0 := by simpa only [not_or, not_not] using low
  refine ⟨m, _, _, hm, Nat.not_le.mp address, ?_, (Except.ok.inj h).symm⟩
  rw [encodeFrame_fields (not_not.mp top) sample null data, serialize, ← not_not.mp length, toBytes_assemble]

/-! The rows of the opcode table, as frames of the layout. -/

/-- A frame instruction is the row of its parts. -/
theorem eq_frameInstr {i : Instr} {m : Model} {mode : Mode} {addr : Nat} (h : i.frameParts = some (m, mode, addr)) :
    i = frameInstr m mode addr := by
  cases i <;> cases h <;> simp only [frameInstr, BitVec.ofNat_toNat, BitVec.setWidth_eq]

/-- R63: the row keeps an ADDRESS that fits its model's field. -/
theorem frameParts_frameInstr {cfg : Config} {m : Model} (hm : cfg.model? = some m) (mode : Mode) {addr : Nat}
    (h : addr < 2 ^ cfg.a) : (frameInstr m mode addr).frameParts = some (m, mode, addr) := by
  rw [Config.model?_eq_some hm] at h
  cases m <;> cases mode <;> exact congrArg (fun n => some (_, _, n)) (Nat.mod_eq_of_lt h)

/-- R63: the ADDRESS of a frame instruction fits its model's field. -/
theorem fits_of_frameParts {i : Instr} {cfg : Config} {m : Model} {mode : Mode} {addr : Nat}
    (hi : i.frameParts = some (m, mode, addr)) (hm : cfg.model? = some m) : addr < 2 ^ cfg.a := by
  rw [Config.model?_eq_some hm]
  cases i <;> cases hi <;> exact BitVec.isLt _

/-- R35, R67: a frame instruction is well-formed when its ADDRESS is below the channel count of its row's model. -/
theorem wellFormed_iff_of_frameParts {i : Instr} {cfg : Config} {m : Model} {mode : Mode} {addr : Nat}
    (hi : i.frameParts = some (m, mode, addr)) (hm : cfg.model? = some m) : i.wellFormed = true ↔ addr < cfg.count := by
  rw [Config.model?_eq_some hm]
  cases i <;> cases hi
  case seFrameB | diffFrameB | seFrameE | diffFrameE | seFrameG | diffFrameG => exact decide_eq_true_iff
  all_goals exact iff_of_true rfl (BitVec.isLt _)

/-- R67, R77: the opcode table's word of a frame instruction is the frame of the layout on its row's model. -/
theorem encode_of_frameParts {i : Instr} {cfg : Config} {m : Model} {mode : Mode} {addr : Nat}
    (hi : i.frameParts = some (m, mode, addr)) (hm : cfg.model? = some m) :
    encode i = .frame (serialize cfg (encodeFrame cfg mode addr)) := by
  rw [encodeFrame_eq_sum cfg mode (fits_of_frameParts hi hm), Config.model?_eq_some hm]
  cases i <;> cases hi <;>
    simp [encode, tableFrame, serialize, Model.config, Config.n, Config.t, Config.a, Config.r, ChannelCount.addressBitWidth,
      ChannelCount.toNat, Mode.bit]

/-- An instruction with no frame is read back from its request word (R70 to R72). -/
theorem decode_encode_request {i : Instr} (cfg : Config) (hi : i.frameParts = none) (hw : i.wellFormed = true) :
    decode cfg (encode i) = .ok i := by
  cases i <;> cases hi <;> refine congrArg Except.ok ((decodeRequest_requestWord _ _ _).trans ?_)
  case seRead p => rfl
  case diffRead p m => rfl
  case illegal op p m =>
    obtain ⟨not_diff, not_read⟩ := illegal_wellFormed_iff.mp hw
    rw [if_neg not_read, if_neg not_diff]

/-- Settles O13: a request word is its fields; a frame is the layout's, whose fields the decoder reads. -/
theorem decodingAnEncodedInstructionGivesItBack : Obligations.DecodingAnEncodedInstructionGivesItBack := by
  intro i cfg hw hrow
  cases hi : i.frameParts with
  | none => exact decode_encode_request cfg hi hw
  | some parts =>
    obtain ⟨m, mode, addr⟩ := parts
    have hm := hrow m mode addr hi
    rw [encode_of_frameParts hi hm, eq_frameInstr hi]
    exact decodeFrame_serialize hm mode ((wellFormed_iff_of_frameParts hi hm).mp hw)

/-- Settles O14: what the frame decoder accepts is a frame of the layout, which is its row's word. -/
theorem everyDecodedWordIsItsInstructionsEncoding : Obligations.EveryDecodedWordIsItsInstructionsEncoding := by
  intro cfg w i h
  cases w with
  | request w =>
    obtain rfl : decodeRequest w = i := Except.ok.inj h
    exact ⟨encode_decodeRequest w, decodeRequest_wellFormed w⟩
  | frame bytes =>
    obtain ⟨m, mode, addr, hm, ha, rfl, rfl⟩ := decodeFrame_eq_ok h
    have hi := frameParts_frameInstr hm mode (ha.trans_le cfg.count_le_two_pow)
    exact ⟨encode_of_frameParts hi hm, (wellFormed_iff_of_frameParts hi hm).mpr ha⟩

/-- Settles O12: no decoder reads the bus parameters, so each word is evaluated on a closed configuration. -/
theorem wordsOfTheSpecDecodeToTheirInstructions : Obligations.WordsOfTheSpecDecodeToTheirInstructions := by
  intro bus
  simp only [Model.config_bus _ .resolution bus, decode_bus]
  exact ⟨rfl, rfl, rfl, rfl, rfl, rfl, rfl⟩

/-- Settles O8: START, MODE and ADDRESS share no bit, and START is bit T-1. -/
theorem frameIsTheSumOfItsFields : Obligations.FrameIsTheSumOfItsFields := by
  intro cfg mode addr h
  have sum := encodeFrame_eq_sum cfg mode h
  refine ⟨?_, ?_, encodeFrame_lt cfg mode h⟩
  · cases mode <;> simpa [Mode.bit] using sum
  · have start_place : cfg.t - 1 = cfg.a + cfg.r + 3 := by unfold Config.t; omega
    rw [sum, start_place]
    omega

end Sys2Proof.Machine
end

section
/-! PROOFS. The accept steps of 43_device_operations.md R161 to R163 and the order of checks of 60_exceptions.md R208. -/

namespace Sys2Proof.Machine

/-- In `IDLE`, a request that fails a check is answered, and only the response is new. -/
theorem State.onBlock_accept_error {s : State} (idle : s.phase = .idle) {c : Config → Except RequestError (List Byte)}
    {e : RequestError} (h : c s.cfg = .error e) :
    (s.onBlock fun cfg b => b.whenIdle (Block.accept (c cfg))) = .next { s with outputs := .response e.response :: s.outputs } := by
  rw [State.onBlock_accept_idle idle, h]

/-- In `IDLE`, a request that passes its checks issues its frame. -/
theorem State.onBlock_accept_ok {s : State} (idle : s.phase = .idle) {c : Config → Except RequestError (List Byte)}
    {tx : List Byte} (h : c s.cfg = .ok tx) :
    (s.onBlock fun cfg b => b.whenIdle (Block.accept (c cfg))) =
      .next { s with txbuf := tx, phase := .waitXfer, outputs := .transfer tx :: s.outputs } := by
  rw [State.onBlock_accept_idle idle, h]

theorem exec_seRead_error {s : State} (idle : s.phase = .idle) {p : Byte} {e : RequestError}
    (h : singleEndedCommand s.cfg p = .error e) :
    exec (.seRead p) s = .next { s with outputs := .response e.response :: s.outputs } :=
  State.onBlock_accept_error (c := fun cfg => singleEndedCommand cfg p) idle h

theorem exec_seRead_ok {s : State} (idle : s.phase = .idle) {p : Byte} {tx : List Byte}
    (h : singleEndedCommand s.cfg p = .ok tx) :
    exec (.seRead p) s = .next { s with txbuf := tx, phase := .waitXfer, outputs := .transfer tx :: s.outputs } :=
  State.onBlock_accept_ok (c := fun cfg => singleEndedCommand cfg p) idle h

theorem exec_diffRead_error {s : State} (idle : s.phase = .idle) {p m : Byte} {e : RequestError}
    (h : differentialCommand s.cfg p m = .error e) :
    exec (.diffRead p m) s = .next { s with outputs := .response e.response :: s.outputs } :=
  State.onBlock_accept_error (c := fun cfg => differentialCommand cfg p m) idle h

theorem exec_diffRead_ok {s : State} (idle : s.phase = .idle) {p m : Byte} {tx : List Byte}
    (h : differentialCommand s.cfg p m = .ok tx) :
    exec (.diffRead p m) s = .next { s with txbuf := tx, phase := .waitXfer, outputs := .transfer tx :: s.outputs } :=
  State.onBlock_accept_ok (c := fun cfg => differentialCommand cfg p m) idle h

/-! The checks of R208, one at a time. -/

section
variable {cfg : Config} {p m : Byte}

/-- A channel of the device is below 8 (R104, R105). -/
theorem lt_eight_of_lt_count {n : Nat} (h : n < cfg.count) : n < 8 := h.trans_le cfg.count_le_eight

/-- The frame of a channel of the device, as the sum of R66. -/
theorem serialize_encodeFrame (mode : Mode) {addr : Nat} (h : addr < cfg.count) :
    serialize cfg (encodeFrame cfg mode addr) =
      toBytes cfg.n (2 ^ (cfg.a + cfg.r + 3) + mode.bit * 2 ^ (cfg.a + cfg.r + 2) + addr * 2 ^ (cfg.r + 2)) := by
  rw [serialize, encodeFrame_eq_sum cfg mode (h.trans_le cfg.count_le_two_pow)]

theorem singleEndedCommand_supported (h : p.toNat < cfg.count) :
    singleEndedCommand cfg p = .ok (serialize cfg (encodeFrame cfg .singleEnded p.toNat)) := by
  rw [singleEndedCommand_eq, dif_pos (lt_eight_of_lt_count h), if_pos h]

theorem singleEndedCommand_invalid (h : 8 ≤ p.toNat) : singleEndedCommand cfg p = .error (.invalidChannelNumber p) := by
  rw [singleEndedCommand_eq, dif_neg (Nat.not_lt.mpr h)]

theorem singleEndedCommand_unsupported (h : p.toNat < 8) (lacks : cfg.count ≤ p.toNat) :
    singleEndedCommand cfg p = .error (.unsupportedChannel ⟨p.toNat, h⟩) := by
  rw [singleEndedCommand_eq, dif_pos h, if_neg (Nat.not_lt.mpr lacks)]

theorem differentialCommand_plus_invalid (h : 8 ≤ p.toNat) :
    differentialCommand cfg p m = .error (.invalidChannelNumber p) := by
  rw [differentialCommand_eq, dif_neg (Nat.not_lt.mpr h)]

theorem differentialCommand_minus_invalid (hp : p.toNat < 8) (h : 8 ≤ m.toNat) :
    differentialCommand cfg p m = .error (.invalidChannelNumber m) := by
  rw [differentialCommand_eq, dif_pos hp, dif_neg (Nat.not_lt.mpr h)]

theorem differentialCommand_plus_unsupported (hp : p.toNat < 8) (hm : m.toNat < 8) (lacks : cfg.count ≤ p.toNat) :
    differentialCommand cfg p m = .error (.unsupportedChannel ⟨p.toNat, hp⟩) := by
  rw [differentialCommand_eq, dif_pos hp, dif_pos hm, if_neg (Nat.not_lt.mpr lacks)]

theorem differentialCommand_minus_unsupported (hp : p.toNat < cfg.count) (hm : m.toNat < 8) (lacks : cfg.count ≤ m.toNat) :
    differentialCommand cfg p m = .error (.unsupportedChannel ⟨m.toNat, hm⟩) := by
  rw [differentialCommand_eq, dif_pos (lt_eight_of_lt_count hp), dif_pos hm, if_pos hp, if_neg (Nat.not_lt.mpr lacks)]

theorem differentialCommand_no_pair (hp : p.toNat < cfg.count) (hm : m.toNat < cfg.count) (no_pair : m.toNat ≠ p.toNat ^^^ 1) :
    differentialCommand cfg p m = .error (.unsupportedDifferentialCombination ⟨p.toNat, lt_eight_of_lt_count hp⟩
      ⟨m.toNat, lt_eight_of_lt_count hm⟩) := by
  rw [differentialCommand_eq, dif_pos (lt_eight_of_lt_count hp), dif_pos (lt_eight_of_lt_count hm), if_pos hp, if_pos hm,
    if_neg no_pair]

/-- R106: the two channels of a pair are both channels of the device, or neither is. -/
theorem partner_lt_count {n : Nat} (h : n < cfg.count) : n ^^^ 1 < cfg.count := by
  obtain ⟨-, count, -⟩ | ⟨-, count, -⟩ | ⟨-, count, -⟩ := cfg.count_cases <;> rw [count] at h ⊢
  · exact Nat.xor_lt_two_pow (n := 1) h (by decide)
  · exact Nat.xor_lt_two_pow (n := 2) h (by decide)
  · exact Nat.xor_lt_two_pow (n := 3) h (by decide)

theorem differentialCommand_pair (hp : p.toNat < cfg.count) (pair : m.toNat = p.toNat ^^^ 1) :
    differentialCommand cfg p m = .ok (serialize cfg (encodeFrame cfg .differential p.toNat)) := by
  have hm : m.toNat < cfg.count := pair ▸ partner_lt_count hp
  rw [differentialCommand_eq, dif_pos (lt_eight_of_lt_count hp), dif_pos (lt_eight_of_lt_count hm), if_pos hp, if_pos hm,
    if_pos pair]

/-- R106: the pairing table is the pairs of channels that differ in bit 0. -/
theorem mem_pairs_iff :
    (p, m) ∈ [((0 : Byte), (1 : Byte)), (1, 0), (2, 3), (3, 2), (4, 5), (5, 4), (6, 7), (7, 6)] ↔
      p.toNat < 8 ∧ m.toNat = p.toNat ^^^ 1 := by
  constructor
  · simp only [List.mem_cons, Prod.mk.injEq, List.not_mem_nil, or_false]
    rintro (⟨rfl, rfl⟩ | ⟨rfl, rfl⟩ | ⟨rfl, rfl⟩ | ⟨rfl, rfl⟩ | ⟨rfl, rfl⟩ | ⟨rfl, rfl⟩ | ⟨rfl, rfl⟩ | ⟨rfl, rfl⟩) <;> decide
  · rintro ⟨hp, pair⟩
    have partner : m = p ^^^ 1 := BitVec.eq_of_toNat_eq (by rw [pair, BitVec.toNat_xor]; rfl)
    have channel : p = BitVec.ofNat 8 p.toNat := by rw [BitVec.ofNat_toNat, BitVec.setWidth_eq]
    rw [partner, channel]
    interval_cases p.toNat <;> decide

/-- R105, R106: what a device accepts. -/
theorem differentialCommand_isOk : (differentialCommand cfg p m).isOk = decide (p.toNat < cfg.count ∧ m.toNat = p.toNat ^^^ 1) := by
  by_cases accepted : p.toNat < cfg.count ∧ m.toNat = p.toNat ^^^ 1
  · rw [differentialCommand_pair accepted.1 accepted.2, decide_eq_true accepted]; rfl
  · rw [decide_eq_false accepted, differentialCommand_eq]
    repeat' split
    · exact absurd ⟨‹p.toNat < cfg.count›, ‹m.toNat = p.toNat ^^^ 1›⟩ accepted
    all_goals rfl

end

/-- R202: the channel number as the error payload. -/
theorem unsupportedChannel_response {ε : Type} {p : Byte} (h : p.toNat < 8) :
    (RequestError.unsupportedChannel ⟨p.toNat, h⟩).response = (⟨.unsupportedChannel, 0, 0, 0, p, 0, none⟩ : Response ε) := by
  simp [RequestError.response, Response.error]

/-- R203: both channel numbers as the error payloads. -/
theorem unsupportedDifferentialCombination_response {ε : Type} {p m : Byte} (hp : p.toNat < 8) (hm : m.toNat < 8) :
    (RequestError.unsupportedDifferentialCombination ⟨p.toNat, hp⟩ ⟨m.toNat, hm⟩).response =
      (⟨.unsupportedDifferentialCombination, 0, 0, 0, p, m, none⟩ : Response ε) := by
  simp [RequestError.response, Response.error]

/-- Settles O18: the checks pass, and the frame is the sum of its fields. -/
theorem seReadOfASupportedChannelIssuesItsTransfer : Obligations.SeReadOfASupportedChannelIssuesItsTransfer := by
  intro s p tx idle hp htx
  have command := singleEndedCommand_supported hp
  rw [serialize_encodeFrame _ hp, Mode.bit, Nat.one_mul, ← htx] at command
  exact exec_seRead_ok idle command

/-- Settles O19: the first failing check of R162. -/
theorem seReadOfABadChannelIsAnswered : Obligations.SeReadOfABadChannelIsAnswered := by
  intro s p idle
  refine ⟨fun invalid => exec_seRead_error idle (singleEndedCommand_invalid invalid), fun ⟨lacks, channel⟩ => ?_⟩
  rw [exec_seRead_error idle (singleEndedCommand_unsupported (Nat.lt_succ_of_le channel) lacks), unsupportedChannel_response]

/-- Settles O20: a pair of the table passes every check, its minus channel with its plus channel. -/
theorem diffReadOfALegalPairIssuesItsTransfer : Obligations.DiffReadOfALegalPairIssuesItsTransfer := by
  intro s p m tx idle hp pair htx
  have command := differentialCommand_pair hp (mem_pairs_iff.mp pair).2
  rw [serialize_encodeFrame _ hp, Mode.bit, Nat.zero_mul, Nat.add_zero, ← htx] at command
  exact exec_diffRead_ok idle command

/-- Settles O21: the first failing check of R208, clause by clause. -/
theorem diffReadReportsItsFirstFailingCheck : Obligations.DiffReadReportsItsFirstFailingCheck := by
  intro s p m idle
  refine ⟨fun plus => exec_diffRead_error idle (differentialCommand_plus_invalid plus),
    fun ⟨hp, minus⟩ => exec_diffRead_error idle (differentialCommand_minus_invalid (Nat.lt_succ_of_le hp) minus),
    fun ⟨hp, hm, lacks⟩ => ?_, fun ⟨hp, hm, lacks⟩ => ?_, fun ⟨hp, hm, not_in_table⟩ => ?_⟩
  · rw [exec_diffRead_error idle (differentialCommand_plus_unsupported (Nat.lt_succ_of_le hp) (Nat.lt_succ_of_le hm) lacks),
      unsupportedChannel_response]
  · rw [exec_diffRead_error idle (differentialCommand_minus_unsupported hp (Nat.lt_succ_of_le hm) lacks),
      unsupportedChannel_response]
  · have no_pair : m.toNat ≠ p.toNat ^^^ 1 := fun pair => not_in_table (mem_pairs_iff.mpr ⟨lt_eight_of_lt_count hp, pair⟩)
    rw [exec_diffRead_error idle (differentialCommand_no_pair hp hm no_pair), unsupportedDifferentialCombination_response]

/-- Settles O22: an illegal request fails at once. -/
theorem illegalRequestIsAnswered : Obligations.IllegalRequestIsAnswered :=
  fun _ op _ m idle => State.onBlock_accept_error (c := fun _ => .error (.illegalRequest op m)) idle rfl

/-- Settles O23: the accepted pairs are counted for each of the three channel counts. -/
theorem asManyPairsAcceptedAsChannels : Obligations.AsManyPairsAcceptedAsChannels := by
  intro cfg
  simp only [differentialCommand_isOk]
  obtain ⟨-, count, -⟩ | ⟨-, count, -⟩ | ⟨-, count, -⟩ := cfg.count_cases <;> rw [count] <;> decide

/-- Settles O24: no instruction is accepted in `WAIT_XFER`. -/
theorem waitingBlockHoldsEveryInstruction : Obligations.WaitingBlockHoldsEveryInstruction :=
  fun i _ waiting => exec_waitXfer waiting i

/-- R200: a request error ends its transaction before a `Transfer`. -/
@[simp] theorem RequestError.response_not_transferIssued {ε : Type} (e : RequestError) :
    (e.response : Response ε).status.transferIssued = false := by cases e <;> rfl

/-- Settles O25: an instruction is held, answered with an error, or issues a frame. -/
theorem instructionFrame : Obligations.InstructionFrame := by
  intro i s t h
  obtain ⟨b', cfg'⟩ := t
  obtain ⟨rfl, ⟨-, rfl⟩ | ⟨idle, ⟨e, rfl⟩ | ⟨mode, addr, -, rfl⟩⟩⟩ := exec_next_cases h
  · exact ⟨rfl, rfl, rfl, rfl, .inl ⟨rfl, rfl, rfl⟩⟩
  · exact ⟨rfl, rfl, rfl, rfl, .inr (.inl ⟨e.response, rfl, e.response_not_transferIssued, rfl, rfl⟩)⟩
  · exact ⟨rfl, rfl, rfl, rfl, .inr (.inr ⟨rfl, idle, rfl⟩)⟩

end Sys2Proof.Machine
end

section
/-! PROOFS. The command frames of 30_encoding.md as instructions: emitted on a block of their row's model, refused on any other. -/

namespace Sys2Proof.Machine

theorem exec_of_frameParts {i : Instr} {m : Model} {mode : Mode} {addr : Nat} (hi : i.frameParts = some (m, mode, addr))
    (s : State) : exec i s = s.onBlock fun cfg b => b.whenIdle (Block.emitFrame cfg m mode addr) := by
  cases i <;> cases hi <;> rfl

/-- In `IDLE`, a well-formed frame row of the block's model sends the row's word. -/
theorem exec_frame_emitted {i : Instr} {s : State} {m : Model} {mode : Mode} {addr : Nat} {tx bytes : List Byte}
    (idle : s.phase = .idle) (hi : i.frameParts = some (m, mode, addr)) (hm : s.cfg.model? = some m) (wf : i.wellFormed = true)
    (word : encode i = .frame bytes) (htx : tx = bytes) :
    exec i s = .next { s with txbuf := tx, phase := .waitXfer, outputs := .transfer tx :: s.outputs } := by
  subst htx
  obtain rfl := PortWord.frame.inj (word.symm.trans (encode_of_frameParts hi hm))
  rw [exec_of_frameParts hi, State.onBlock_emitFrame_idle idle hm ((wellFormed_iff_of_frameParts hi hm).mp wf)]

/-- Settles O26: each row is well-formed, and its word is the one of the opcode table. -/
theorem singleEndedFramesAreEmitted : Obligations.SingleEndedFramesAreEmitted := by
  intro s idle
  exact ⟨fun _ _ hm htx => exec_frame_emitted idle rfl hm rfl rfl htx,
    fun _ _ hm ha htx => exec_frame_emitted idle rfl hm (decide_eq_true ha) rfl htx,
    fun _ _ hm htx => exec_frame_emitted idle rfl hm rfl rfl htx,
    fun _ _ hm htx => exec_frame_emitted idle rfl hm rfl rfl htx,
    fun _ _ hm ha htx => exec_frame_emitted idle rfl hm (decide_eq_true ha) rfl htx,
    fun _ _ hm htx => exec_frame_emitted idle rfl hm rfl rfl htx,
    fun _ _ hm ha htx => exec_frame_emitted idle rfl hm (decide_eq_true ha) rfl htx,
    fun _ _ hm htx => exec_frame_emitted idle rfl hm rfl rfl htx⟩

/-- Settles O27: the same for the differential rows. -/
theorem differentialFramesAreEmitted : Obligations.DifferentialFramesAreEmitted := by
  intro s idle
  exact ⟨fun _ _ hm htx => exec_frame_emitted idle rfl hm rfl rfl htx,
    fun _ _ hm ha htx => exec_frame_emitted idle rfl hm (decide_eq_true ha) rfl htx,
    fun _ _ hm htx => exec_frame_emitted idle rfl hm rfl rfl htx,
    fun _ _ hm htx => exec_frame_emitted idle rfl hm rfl rfl htx,
    fun _ _ hm ha htx => exec_frame_emitted idle rfl hm (decide_eq_true ha) rfl htx,
    fun _ _ hm htx => exec_frame_emitted idle rfl hm rfl rfl htx,
    fun _ _ hm ha htx => exec_frame_emitted idle rfl hm (decide_eq_true ha) rfl htx,
    fun _ _ hm htx => exec_frame_emitted idle rfl hm rfl rfl htx⟩

/-- Settles O28: a frame is emitted only on its own model, with an ADDRESS below the channel count. -/
theorem framesTheBlockNeverEmitsAreRefused : Obligations.FramesTheBlockNeverEmitsAreRefused := by
  intro i s m mode addr idle hi never
  rw [exec_of_frameParts hi]
  exact State.onBlock_emitFrame_refused idle (fun ⟨model, below⟩ => never.elim (fun h => h model) (Nat.not_le.mpr below)) mode

/-- In `IDLE`, the frame row of the block's model and a channel of the device is emitted as the layout's frame. -/
theorem exec_frameInstr_idle {s : State} {m : Model} {addr : Nat} (idle : s.phase = .idle) (hm : s.cfg.model? = some m)
    (ha : addr < s.cfg.count) (mode : Mode) :
    exec (frameInstr m mode addr) s =
      .next { s with
        txbuf := serialize s.cfg (encodeFrame s.cfg mode addr)
        phase := .waitXfer
        outputs := .transfer (serialize s.cfg (encodeFrame s.cfg mode addr)) :: s.outputs } := by
  rw [exec_of_frameParts (frameParts_frameInstr hm mode (ha.trans_le s.cfg.count_le_two_pow)),
    State.onBlock_emitFrame_idle idle hm ha]

/-- Settles O29: both are held while the block waits, and send the same frame when it is idle. -/
theorem seReadIsTheEmissionOfItsFrameRow : Obligations.SeReadIsTheEmissionOfItsFrameRow := by
  intro s m p hm hp
  cases hphase : s.phase with
  | waitXfer => rw [exec_waitXfer hphase, exec_waitXfer hphase]
  | idle => rw [exec_seRead_ok hphase (singleEndedCommand_supported hp), exec_frameInstr_idle hphase hm hp]

/-- Settles O30: the same for a pair of channels, which differ in bit 0. -/
theorem diffReadIsTheEmissionOfItsFrameRow : Obligations.DiffReadIsTheEmissionOfItsFrameRow := by
  intro s m p q hm hp hq
  have pair : q.toNat = p.toNat ^^^ 1 := by rw [hq, BitVec.toNat_xor]; rfl
  cases hphase : s.phase with
  | waitXfer => rw [exec_waitXfer hphase, exec_waitXfer hphase]
  | idle => rw [exec_diffRead_ok hphase (differentialCommand_pair hp pair), exec_frameInstr_idle hphase hm hp]

end Sys2Proof.Machine
end

section
/-! PROOFS. The completion steps of 43_device_operations.md R164 and R165, and the Reading of 42_response_decoder.md. -/

namespace Sys2Proof.Machine

/-- A waiting block completes its transaction with the answer, from behind the words held. -/
theorem step_answer {s : State} {held : List PortWord} {a : Answer PeriphErr} {rest : List (Input PeriphErr)}
    (waiting : s.phase = .waitXfer) (inputs : s.inputs = held.map Input.present ++ .answer a :: rest) :
    step s = mapNext (Block.configured s.cfg) ((s.toBlock.withInputs (held.map Input.present ++ rest)).complete s.cfg a) := by
  rw [← stepFor_answer waiting inputs]; rfl

/-- Settles O31: the bytes have the right number, and their value is a Reading. -/
theorem answerBelowTwoPowRIsAReading : Obligations.AnswerBelowTwoPowRIsAReading := by
  intro s held rx rest waiting inputs length below
  rw [step_answer waiting inputs, Block.complete_of_length_eq length, answerResponse_eq, if_pos below]
  rfl

/-- Settles O32: the bytes have the right number, and their value is no Reading. -/
theorem answerFromTwoPowROnIsAFramingError : Obligations.AnswerFromTwoPowROnIsAFramingError := by
  intro s held rx rest waiting inputs length above
  rw [step_answer waiting inputs, Block.complete_of_length_eq length, answerResponse_eq, if_neg (Nat.not_lt.mpr above)]
  rfl

/-- Settles O33: the completion step passes the error value on. -/
theorem transportErrorIsPassedUnchanged : Obligations.TransportErrorIsPassedUnchanged := by
  intro s held e rest waiting inputs
  rw [step_answer waiting inputs]
  rfl

/-- Settles O34: the completion step has no meaning for another number of bytes. -/
theorem answerOfAnotherLengthIsRefused : Obligations.AnswerOfAnotherLengthIsRefused := by
  intro s held rx rest waiting inputs length
  rw [step_answer waiting inputs, Block.complete_of_length_ne length]
  rfl

/-- R141, R142: a decoded answer is a Reading below 2^R, with the range 2^R - 1. -/
theorem decodeAnswer_eq_ok {cfg : Config} {rx : List Byte} {rd : Reading} (h : decodeAnswer cfg rx = .ok rd) :
    rd.value < 2 ^ cfg.r ∧ rd.range = 2 ^ cfg.r - 1 := by
  unfold decodeAnswer framingCheck at h
  split at h
  case isTrue => cases h
  case isFalse below =>
    obtain rfl := Except.ok.inj h
    exact ⟨Nat.not_le.mp below, rfl⟩

/-- Settles O35: the denominator is positive, and a Reading is at most 2^R - 1. -/
theorem fractionOfADecodedAnswer : Obligations.FractionOfADecodedAnswer := by
  intro cfg rx rd h
  obtain ⟨below, range⟩ := decodeAnswer_eq_ok h
  have denom_pos : (0 : Rat) < (cfg.denom : Rat) := Nat.cast_pos.mpr cfg.one_le_denom
  have fraction : rd.fraction cfg = (rd.value : Rat) / (cfg.denom : Rat) := rfl
  have times_denom : rd.fraction cfg * (cfg.denom : Rat) = (rd.value : Rat) := by
    rw [fraction, div_mul_cancel₀ _ denom_pos.ne']
  refine ⟨fun mode => ?_, fun mode => ?_⟩
  · have denom := Config.denom_of_resolution mode
    have denom_cast : (cfg.denom : Rat) = 2 ^ cfg.r - 1 := by
      rw [denom, Nat.cast_sub Nat.one_le_two_pow]; push_cast; rfl
    refine ⟨denom_cast ▸ times_denom, ?_, ?_, ?_⟩
    · exact fraction ▸ div_nonneg (Nat.cast_nonneg _) denom_pos.le
    · rw [fraction, div_le_one denom_pos, Nat.cast_le, denom]
      exact Nat.le_sub_one_of_lt below
    · rw [fraction, div_eq_one_iff_eq denom_pos.ne', Nat.cast_inj, denom, range]
  · rw [Config.denom_of_sourceFixed mode] at times_denom
    exact_mod_cast times_denom

end Sys2Proof.Machine
end

section
/-! PROOFS. The steps of 43_device_operations.md: everything a step can do, and what follows for the outputs, the phase, the
words at the ports and the invariant. -/

namespace Sys2Proof.Machine

variable {ε : Type}

/-- Everything a step can do when it goes on, down to the response or the frame it sends. -/
inductive StepNext (cfg : Config) (b b' : Block ε) : Prop where
  | stay (is : b' = b)
  | ignore (rest : List (Input ε)) (is : b' = b.withInputs rest)
  | reset (held : List PortWord) (rest : List (Input ε)) (inputs : b.inputs = held.map Input.present ++ .reset :: rest)
      (is : b' = (b.withInputs (held.map Input.present ++ rest)).resetRunning cfg)
  | raise (w : PortWord) (rest : List (Input ε)) (e : RequestError) (idle : b.phase = .idle)
      (inputs : b.inputs = .present w :: rest) (is : b' = (b.withInputs rest).raise e)
  | issue (w : PortWord) (rest : List (Input ε)) (mode : Mode) (addr : Nat) (idle : b.phase = .idle)
      (inputs : b.inputs = .present w :: rest) (emitted : addr < cfg.count)
      (is : b' = (b.withInputs rest).issue (serialize cfg (encodeFrame cfg mode addr)))
  | transportError (held : List PortWord) (e : ε) (rest : List (Input ε)) (waiting : b.phase = .waitXfer)
      (inputs : b.inputs = held.map Input.present ++ .answer (.err e) :: rest)
      (is : b' = (b.withInputs (held.map Input.present ++ rest)).finish (peripheralResponse e))
  | received (held : List PortWord) (rx : List Byte) (rest : List (Input ε)) (waiting : b.phase = .waitXfer)
      (inputs : b.inputs = held.map Input.present ++ .answer (.ok rx) :: rest) (length : rx.length = cfg.n)
      (is : b' = { b.withInputs (held.map Input.present ++ rest) with rxbuf := rx }.finish (answerResponse cfg rx))

theorem stepNext_of_stepFor {cfg : Config} {b b' : Block ε} (h : stepFor cfg b = .next b') : StepNext cfg b b' := by
  obtain is | ⟨rest, is⟩ | ⟨held, rest, inputs, -, is⟩ | ⟨idle, i, w, rest, inputs, -, run⟩ | ⟨waiting, held, a, rest, inputs, run⟩ :=
    stepFor_next_cases h
  · exact .stay is
  · exact .ignore rest is
  · exact .reset held rest inputs is
  · obtain ⟨waiting, -⟩ | ⟨-, ⟨e, is⟩ | ⟨mode, addr, emitted, is⟩⟩ := Block.exec_next_cases run
    · cases idle.symm.trans waiting
    · exact .raise w rest e idle inputs is
    · exact .issue w rest mode addr idle inputs emitted is
  · obtain ⟨e, rfl, is⟩ | ⟨rx, rfl, length, is⟩ := Block.complete_next run
    · exact .transportError held e rest waiting inputs is
    · exact .received held rx rest waiting inputs length is

/-- The same in the host's interface: the configuration stands beside the block the step gives. -/
theorem stepNext_of_step {s t : State} (h : step s = .next t) :
    ∃ b', t = b'.configured s.cfg ∧ StepNext s.cfg s.toBlock b' := by
  obtain ⟨run, hcfg⟩ := step_next.mp h
  exact ⟨t.toBlock, by rw [← hcfg, State.toBlock_configured], stepNext_of_stepFor run⟩

/-! The responses, with the invariant's conditions on them. -/

@[simp] theorem answerResponse_transferIssued (cfg : Config) (rx : List Byte) :
    (answerResponse cfg rx : Response ε).status.transferIssued = true := by
  rw [answerResponse_eq]; split <;> rfl

/-- R200: a response with a status other than `OK` and `PERIPHERAL` and nothing but error payloads is one the block may emit. -/
theorem responseOk_error (cfg : Config) {status : Status} (not_ok : status ≠ .ok) (not_periph : status ≠ .peripheral)
    (errA errB : Byte) : ResponseOk cfg (.error status errA errB : Response ε) where
  fits := ⟨Nat.two_pow_pos 15, Nat.two_pow_pos 15, Nat.two_pow_pos 15⟩
  reading ok := absurd ok not_ok
  noReading _ := ⟨rfl, rfl, rfl⟩
  periph := iff_of_false Bool.false_ne_true not_periph

theorem RequestError.response_ok (cfg : Config) (e : RequestError) : ResponseOk cfg (e.response : Response ε) := by
  cases e <;> exact responseOk_error cfg (by decide) (by decide) _ _

theorem peripheralResponse_ok (cfg : Config) (e : ε) : ResponseOk cfg (peripheralResponse e) where
  fits := ⟨Nat.two_pow_pos 15, Nat.two_pow_pos 15, Nat.two_pow_pos 15⟩
  reading ok := nomatch ok
  noReading _ := ⟨rfl, rfl, rfl⟩
  periph := iff_of_true rfl rfl

/-- R145: a Reading below 2^R is at most its range, and both fit their 15 bits. -/
theorem answerResponse_ok (cfg : Config) (rx : List Byte) : ResponseOk cfg (answerResponse cfg rx : Response ε) := by
  rw [answerResponse_eq]
  split
  case isTrue below =>
    have top : 2 ^ cfg.r ≤ 2 ^ 15 := Nat.pow_le_pow_right (by decide) (by have := cfg.r_bounds; omega)
    exact {
      fits := ⟨below.trans_le top, by dsimp only; omega, cfg.denom_lt⟩
      reading := fun _ => ⟨Nat.le_sub_one_of_lt below, rfl, rfl, rfl, rfl⟩
      noReading := fun not_ok => absurd rfl not_ok
      periph := iff_of_false Bool.false_ne_true nofun }
  case isFalse => exact responseOk_error cfg (status := .framing) (by decide) (by decide) 0 0

/-- A response that ends the transaction in flight leaves a waiting block's invariant in place. -/
theorem Inv.finish {s : State} (hs : Inv s) (waiting : s.phase = .waitXfer) {r : Response PeriphErr} (hr : ResponseOk s.cfg r)
    (inputs : List (Input PeriphErr)) {rx : List Byte} (hrx : rx.length = s.cfg.n) :
    Inv ({ s with phase := .idle, inputs := inputs, rxbuf := rx, outputs := .response r :: s.outputs }) where
  txLength := hs.txLength
  rxLength := hrx
  outputs := by
    obtain ⟨older, last⟩ := hs.waiting waiting
    exact ⟨hr, fun _ => ⟨_, older, last⟩, hs.outputs⟩
  waiting := nofun

/-- Settles O44: each thing a step can do keeps the buffers' lengths and adds at most one safe output. -/
theorem everyStepKeepsTheInvariant : Obligations.EveryStepKeepsTheInvariant := by
  intro s t hs h
  obtain ⟨b', rfl, did⟩ := stepNext_of_step h
  cases did with
  | stay is => subst is; exact hs
  | ignore rest is => subst is; exact ⟨hs.txLength, hs.rxLength, hs.outputs, hs.waiting⟩
  | reset held rest inputs is =>
    subst is
    exact ⟨freeBytes_length _ _, freeBytes_length _ _, hs.outputs, nofun⟩
  | raise w rest e idle inputs is =>
    subst is
    exact ⟨hs.txLength, hs.rxLength, ⟨e.response_ok s.cfg, by simp, hs.outputs⟩,
      fun waiting => nomatch idle.symm.trans waiting⟩
  | issue w rest mode addr idle inputs emitted is =>
    subst is
    exact ⟨serialize_length _ _, hs.rxLength, ⟨⟨mode, addr, emitted, rfl⟩, hs.outputs⟩, fun _ => ⟨s.outputs, rfl⟩⟩
  | transportError held e rest waiting inputs is =>
    subst is
    exact hs.finish waiting (peripheralResponse_ok s.cfg e) _ hs.rxLength
  | received held rx rest waiting inputs length is =>
    subst is
    exact hs.finish waiting (answerResponse_ok s.cfg rx) _ length

/-- Settles O45: what each thing a step can do sends, and in which phase. -/
theorem everyOutputIsOneSequencerStep : Obligations.EveryOutputIsOneSequencerStep := by
  intro s t h
  obtain ⟨b', rfl, did⟩ := stepNext_of_step h
  cases did with
  | stay is => exact .inl (by rw [is]; rfl)
  | ignore rest is => exact .inl (by rw [is]; rfl)
  | reset held rest inputs is => exact .inl (by rw [is]; rfl)
  | raise w rest e idle inputs is =>
    subst is
    exact .inr (.inr ⟨e.response, rfl, idle, rfl, by simp, fun _ => ⟨idle, rfl⟩⟩)
  | issue w rest mode addr idle inputs emitted is =>
    subst is
    exact .inr (.inl ⟨_, rfl, idle, rfl, rfl, rfl⟩)
  | transportError held e rest waiting inputs is =>
    subst is
    exact .inr (.inr ⟨peripheralResponse e, rfl, rfl, rfl, fun _ => waiting, nofun⟩)
  | received held rx rest waiting inputs length is =>
    subst is
    exact .inr (.inr ⟨answerResponse s.cfg rx, rfl, rfl, rfl, fun _ => waiting, by simp⟩)

/-- Where the phase stays, nothing is to be said of its changes. -/
theorem phase_changes_of_same {p q : Phase} (same : q = p) {P Q : Prop} :
    (p = .waitXfer → q = .idle → P) ∧ (p = .idle → q = .waitXfer → Q) := by
  subst same
  exact ⟨fun waiting idle => (nomatch waiting.symm.trans idle), fun idle waiting => (nomatch idle.symm.trans waiting)⟩

/-- Settles O46: of all a step can do, only a `Transfer` begins a wait, and only an answer or a reset ends one. -/
theorem phaseChangesOnlyByTransferAnswerOrReset : Obligations.PhaseChangesOnlyByTransferAnswerOrReset := by
  intro s t h
  obtain ⟨b', rfl, did⟩ := stepNext_of_step h
  cases did with
  | stay is => exact phase_changes_of_same (by rw [is]; rfl)
  | ignore rest is => exact phase_changes_of_same (by rw [is]; rfl)
  | reset held rest inputs is =>
    subst is
    exact ⟨fun _ _ => ⟨held, rest, rfl, .inr ⟨inputs, rfl⟩⟩, nofun⟩
  | raise w rest e idle inputs is => exact phase_changes_of_same (by rw [is]; rfl)
  | issue w rest mode addr idle inputs emitted is =>
    subst is
    exact ⟨nofun, fun _ _ => ⟨w, inputs, rfl⟩⟩
  | transportError held e rest waiting inputs is =>
    subst is
    exact ⟨fun _ _ => ⟨held, rest, rfl, .inl ⟨_, _, inputs, rfl⟩⟩, nofun⟩
  | received held rx rest waiting inputs length is =>
    subst is
    exact ⟨fun _ _ => ⟨held, rest, rfl, .inl ⟨_, _, inputs, rfl⟩⟩, nofun⟩

/-- Words at the ports are kept when an input that is no word is taken from among them. -/
theorem presented_take (held : List PortWord) {x : Input ε} (hx : presented [x] = []) (rest : List (Input ε)) :
    presented (held.map Input.present ++ x :: rest) = presented (held.map Input.present ++ rest) := by
  rw [← List.singleton_append, presented_append, presented_append, presented_append, hx, List.nil_append]

theorem stepFor_waiting {cfg : Config} {b : Block ε} (waiting : b.phase = .waitXfer) :
    stepFor cfg b = b.perform cfg (waitAction b.inputs) := by
  simp only [stepFor, Block.nextAction, waiting]

/-- Settles O39: whatever a waiting block takes next, it is no word, and the words on both sides of it stay. -/
theorem waitingBlockKeepsPresentedWords : Obligations.WaitingBlockKeepsPresentedWords := by
  intro s t waiting h
  have run := (step_next.mp h).1
  rw [stepFor_waiting waiting] at run
  obtain ⟨held, inputs, act⟩ | ⟨held, a, rest, inputs, act⟩ | ⟨held, a, rest, inputs, act⟩ | ⟨held, rest, inputs, act⟩ :=
    waitAction_cases s.inputs <;> rw [act] at run
  · rw [← Host.Outcome.next.inj run]
  · rw [inputs, presented_take held rfl]
    obtain ⟨e, -, is⟩ | ⟨rx, -, -, is⟩ := Block.complete_next run <;> rw [is] <;> rfl
  · rw [inputs, presented_take held rfl, ← Host.Outcome.next.inj run, Block.withInputs_inputs]
  · rw [inputs, presented_take held rfl, ← Host.Outcome.next.inj run, Block.resetRunning_inputs, Block.withInputs_inputs]

end Sys2Proof.Machine
end

section
/-! PROOFS. The transactions of 43_device_operations.md R169: what a step does is fixed by the configuration and the input it
takes. -/

namespace Sys2Proof.Machine

variable {ε : Type}

/-- Two outcomes, of two blocks, that nobody can tell apart: the same refusal, or one new output of both, the same phase and, while
they wait, the same `TXBUF`. -/
inductive Alike (b₁ b₂ : Block ε) : BlockResult ε → BlockResult ε → Prop where
  | refused (r : Refusal) : Alike b₁ b₂ (.refused r) (.refused r)
  | next {c₁ c₂ : Block ε} (new : Output ε) (outputs₁ : c₁.outputs = new :: b₁.outputs) (outputs₂ : c₂.outputs = new :: b₂.outputs)
      (phase : c₁.phase = c₂.phase) (txbuf : c₁.phase = .waitXfer → c₁.txbuf = c₂.txbuf) : Alike b₁ b₂ (.next c₁) (.next c₂)

/-- The inputs left are no part of what can be told apart. -/
theorem Alike.of_withInputs {b₁ b₂ : Block ε} {l₁ l₂ : List (Input ε)} {o₁ o₂ : BlockResult ε}
    (h : Alike (b₁.withInputs l₁) (b₂.withInputs l₂) o₁ o₂) : Alike b₁ b₂ o₁ o₂ := by
  cases h with
  | refused r => exact .refused r
  | next new outputs₁ outputs₂ phase txbuf => exact .next new outputs₁ outputs₂ phase txbuf

theorem Block.accept_alike {b₁ b₂ : Block ε} (idle₁ : b₁.phase = .idle) (idle₂ : b₂.phase = .idle)
    (c : Except RequestError (List Byte)) : Alike b₁ b₂ (b₁.accept c) (b₂.accept c) := by
  cases c with
  | error e => exact .next (.response e.response) rfl rfl (idle₁.trans idle₂.symm) fun waiting => (nomatch idle₁.symm.trans waiting)
  | ok tx => exact .next (.transfer tx) rfl rfl rfl fun _ => rfl

theorem Block.emitFrame_alike (b₁ b₂ : Block ε) (cfg : Config) (m : Model) (mode : Mode) (addr : Nat) :
    Alike b₁ b₂ (b₁.emitFrame cfg m mode addr) (b₂.emitFrame cfg m mode addr) := by
  by_cases h : cfg.model? = some m ∧ addr < cfg.count
  · rw [Block.emitFrame_of_emitted h.1 h.2, Block.emitFrame_of_emitted h.1 h.2]
    exact .next (.transfer _) rfl rfl rfl fun _ => rfl
  · rw [Block.emitFrame_of_not_emitted h, Block.emitFrame_of_not_emitted h]
    exact .refused _

/-- An instruction of an idle block reads no more of the block than that it is idle. -/
theorem Block.exec_alike {b₁ b₂ : Block ε} (idle₁ : b₁.phase = .idle) (idle₂ : b₂.phase = .idle) (cfg : Config) (i : Instr) :
    Alike b₁ b₂ (b₁.exec cfg i) (b₂.exec cfg i) := by
  obtain ⟨c, -, is⟩ | ⟨m, mode, addr, is⟩ := instrForm cfg i <;>
    rw [is, is, Block.whenIdle_idle idle₁, Block.whenIdle_idle idle₂]
  · exact Block.accept_alike idle₁ idle₂ c
  · exact Block.emitFrame_alike b₁ b₂ cfg m mode addr

theorem Block.runWord_alike {b₁ b₂ : Block ε} (idle₁ : b₁.phase = .idle) (idle₂ : b₂.phase = .idle) (cfg : Config) (w : PortWord) :
    Alike b₁ b₂ (b₁.runWord cfg w) (b₂.runWord cfg w) := by
  unfold Block.runWord
  cases decode cfg w with
  | ok i => exact Block.exec_alike idle₁ idle₂ cfg i
  | error e => exact .refused _

theorem Block.complete_alike (b₁ b₂ : Block ε) (cfg : Config) (a : Answer ε) :
    Alike b₁ b₂ (b₁.complete cfg a) (b₂.complete cfg a) := by
  cases a with
  | err e => exact .next (.response (peripheralResponse e)) rfl rfl rfl nofun
  | ok rx =>
    by_cases h : rx.length = cfg.n
    · rw [Block.complete_of_length_eq h, Block.complete_of_length_eq h]
      exact .next (.response (answerResponse cfg rx)) rfl rfl rfl nofun
    · rw [Block.complete_of_length_ne h, Block.complete_of_length_ne h]
      exact .refused _

/-- Settles O47: an idle block runs the word, a waiting one completes with the answer, and neither reads history or buffers. -/
theorem transactionDependsOnlyOnItsInputs : Obligations.TransactionDependsOnlyOnItsInputs := by
  intro s₁ s₂ hcfg same_input
  have alike : Alike s₁.toBlock s₂.toBlock (stepFor s₁.cfg s₁.toBlock) (stepFor s₁.cfg s₂.toBlock) := by
    obtain ⟨w, rest₁, rest₂, idle₁, idle₂, inputs₁, inputs₂⟩ |
      ⟨a, held₁, held₂, rest₁, rest₂, waiting₁, waiting₂, inputs₁, inputs₂⟩ := same_input
    · rw [stepFor_present idle₁ inputs₁, stepFor_present idle₂ inputs₂]
      exact (Block.runWord_alike (b₁ := s₁.withInputs rest₁) (b₂ := s₂.withInputs rest₂) idle₁ idle₂ s₁.cfg w).of_withInputs
    · rw [stepFor_answer waiting₁ inputs₁, stepFor_answer waiting₂ inputs₂]
      exact (Block.complete_alike _ _ s₁.cfg a).of_withInputs
  have run₂ : step s₂ = mapNext (Block.configured s₂.cfg) (stepFor s₁.cfg s₂.toBlock) := by rw [hcfg]; rfl
  have run₁ : step s₁ = mapNext (Block.configured s₁.cfg) (stepFor s₁.cfg s₁.toBlock) := rfl
  rw [run₁, run₂]
  generalize stepFor s₁.cfg s₁.toBlock = o₁, stepFor s₁.cfg s₂.toBlock = o₂ at alike
  cases alike with
  | refused r => exact ⟨fun _ h => h, nofun⟩
  | next new outputs₁ outputs₂ phase txbuf =>
    refine ⟨nofun, fun t₁ h => ?_⟩
    obtain rfl := Host.Outcome.next.inj h
    exact ⟨_, new, rfl, outputs₁, outputs₂, phase, txbuf⟩

end Sys2Proof.Machine
end

section
/-! PROOFS. Runs of the sequencer: the words a step takes, waiting, resets, late answers, and whole transactions. -/

namespace Sys2Proof.Machine

/-- Settles O36: an idle block takes the word at its port, and decoding it decides the step. -/
theorem stepRunsTheDecodedInstruction : Obligations.StepRunsTheDecodedInstruction := by
  intro s w rest idle inputs
  have run : step s = mapNext (Block.configured s.cfg) ((s.toBlock.withInputs rest).runWord s.cfg w) := by
    rw [← stepFor_present idle inputs]; rfl
  refine ⟨fun i decoded => ?_, fun e decoded => ?_⟩
  · rw [run, Block.runWord, decoded, exec_eq_onBlock]; rfl
  · rw [run, Block.runWord, decoded]; rfl

/-- R161: a request word at the port of an idle block runs the request it decodes to. -/
theorem step_request {s : State} {w : Req24} {rest : List (Input PeriphErr)} (idle : s.phase = .idle)
    (inputs : s.inputs = .present (.request w) :: rest) : step s = exec (decodeRequest w) { s with inputs := rest } :=
  (stepRunsTheDecodedInstruction s (.request w) rest idle inputs).1 _ rfl

/-- R71: the word of `SE_READ`. -/
theorem decodeRequest_seRead (p : Byte) : decodeRequest (requestWord 1 p 0) = .seRead p := by
  rw [decodeRequest_requestWord, if_pos ⟨rfl, rfl⟩]

/-- R71: the word of `DIFF_READ`. -/
theorem decodeRequest_diffRead (p m : Byte) : decodeRequest (requestWord 2 p m) = .diffRead p m := by
  rw [decodeRequest_requestWord, if_neg fun h => absurd h.1 (by decide), if_pos rfl]

/-- Settles O37: a line is the word of its request, first at the port. -/
theorem programLinesRunTheirInstructions : Obligations.ProgramLinesRunTheirInstructions := by
  intro s p m w program idle
  refine ⟨?_, ?_, step_request idle rfl⟩
  · rw [step_request (s := s.load (.seRead p :: program)) idle rfl, decodeRequest_seRead]; rfl
  · rw [step_request (s := s.load (.diffRead p m :: program)) idle rfl, decodeRequest_diffRead]; rfl

/-- A state that a step leaves as it is stays so in every run. -/
theorem core_run_of_fixed {s : State} (fixed : step s = .next s) (k : Nat) : core.run k s = .next s := by
  induction k with
  | zero => rfl
  | succ k ih => rw [core_run_succ_of_next k fixed, ih]

/-- Settles O38: with nothing but words at the ports a waiting block's step changes nothing. -/
theorem unansweredTransferWaitsForEver : Obligations.UnansweredTransferWaitsForEver := by
  intro s held waiting inputs
  have stays : waitAction s.inputs = .stay := by
    rw [inputs, ← List.append_nil (held.map _), waitAction_held]
    exact holding_stay held
  refine core_run_of_fixed ?_
  rw [step_next, stepFor_waiting waiting, stays]
  exact ⟨rfl, rfl⟩

/-- A reset is taken from behind the words held by a waiting block, and as the first input by an idle one. -/
theorem nextAction_reset {ε : Type} {b : Block ε} {held : List PortWord} {rest : List (Input ε)}
    (inputs : b.inputs = held.map Input.present ++ .reset :: rest) (reached : b.phase = .waitXfer ∨ held = []) :
    b.nextAction = .reset (held.map Input.present ++ rest) := by
  unfold Block.nextAction
  cases hp : b.phase with
  | waitXfer =>
    dsimp only
    rw [inputs, waitAction_held]
    exact holding_reset held rest
  | idle =>
    obtain rfl : held = [] := reached.resolve_left (by rw [hp]; nofun)
    rw [inputs]; rfl

/-- Settles O40: a reset's buffers are free bytes, N of each. -/
theorem resetAbandonsTheTransactionSilently : Obligations.ResetAbandonsTheTransactionSilently := by
  intro s held rest inputs reached
  refine ⟨_, _, s.freeDraws + 2 * s.cfg.n, freeBytes_length s.freeDraws _, freeBytes_length (s.freeDraws + s.cfg.n) _, ?_⟩
  rw [step_next, stepFor, nextAction_reset inputs reached]
  exact ⟨rfl, rfl⟩

/-- Settles O41: in both phases such an answer is passed over. -/
theorem lateAnswerIsNotDecoded : Obligations.LateAnswerIsNotDecoded := by
  intro s held a rest
  refine ⟨fun ⟨waiting, inputs⟩ => ?_, fun ⟨idle, inputs⟩ => ?_⟩
  · have passes : waitAction s.inputs = .ignore (held.map Input.present ++ rest) := by
      rw [inputs, waitAction_held]
      exact holding_ignore held rest
    rw [step_next, stepFor_waiting waiting, passes]
    exact ⟨rfl, rfl⟩
  · have passes : s.toBlock.nextAction = .ignore rest := by
      rw [Block.nextAction, idle]
      obtain inputs | inputs := inputs <;> rw [inputs] <;> rfl
    rw [step_next, stepFor, passes]
    exact ⟨rfl, rfl⟩

/-- R42, R44: a value below 2^R is read back from its N bytes. -/
theorem assemble_toBytes_of_lt {cfg : Config} {v : Nat} (h : v < 2 ^ cfg.r) : assemble (toBytes cfg.n v) = v :=
  assemble_serialize (h.trans_le (Nat.pow_le_pow_right (by decide) (by rw [cfg.t_eq]; omega)))

/-- A waiting block answered with a value below 2^R in N bytes ends in that value. -/
theorem step_value {s : State} {v : Nat} {rest : List (Input PeriphErr)} (waiting : s.phase = .waitXfer)
    (inputs : s.inputs = .answer (.ok (toBytes s.cfg.n v)) :: rest) (below : v < 2 ^ s.cfg.r) :
    step s = .next
      { s with
        phase := .idle
        rxbuf := toBytes s.cfg.n v
        inputs := rest
        outputs := .response ⟨.ok, v, 2 ^ s.cfg.r - 1, s.cfg.denom, 0, 0, none⟩ :: s.outputs } := by
  have value := assemble_toBytes_of_lt below
  have completed := answerBelowTwoPowRIsAReading s [] _ rest waiting inputs (toBytes_length _ _) (value.trans_lt below)
  rwa [value] at completed

/-- A request that issues its frame, answered with a value below 2^R in N bytes, ends in that value. -/
theorem run_two_of_issue {s : State} {w : Req24} {v : Nat} {tx : List Byte} {rest : List (Input PeriphErr)}
    (idle : s.phase = .idle) (below : v < 2 ^ s.cfg.r)
    (inputs : s.inputs = .present (.request w) :: .answer (.ok (toBytes s.cfg.n v)) :: rest)
    (issues : ∀ t : State, t.cfg = s.cfg → t.phase = .idle →
      exec (decodeRequest w) t = .next { t with txbuf := tx, phase := .waitXfer, outputs := .transfer tx :: t.outputs }) :
    core.run 2 s = .next
      { s with
        txbuf := tx
        rxbuf := toBytes s.cfg.n v
        inputs := rest
        outputs := .response ⟨.ok, v, 2 ^ s.cfg.r - 1, s.cfg.denom, 0, 0, none⟩ :: .transfer tx :: s.outputs } := by
  have accepted := (step_request idle inputs).trans (issues _ rfl idle)
  rw [core_run_succ_of_next 1 accepted]
  refine Eq.trans (core_run_succ_of_next 0 (step_value (v := v) (rest := rest) ?_ ?_ ?_)) ?_
  · rfl
  · rfl
  · exact below
  · rw [← idle]; rfl

/-- Settles O42: the accept step of `SE_READ`, then the completion step. -/
theorem singleEndedReadReturnsTheTransportsValue : Obligations.SingleEndedReadReturnsTheTransportsValue := by
  intro s p v tx rest idle hp below inputs htx
  refine run_two_of_issue idle below inputs fun t hcfg idle_t => ?_
  rw [decodeRequest_seRead]
  exact seReadOfASupportedChannelIssuesItsTransfer t p tx idle_t (hcfg ▸ hp) (hcfg ▸ htx)

/-- Settles O49: the accept step of `DIFF_READ`, then the same completion step. -/
theorem differentialReadReturnsTheTransportsValue : Obligations.DifferentialReadReturnsTheTransportsValue := by
  intro s p m v tx rest idle hp pair below inputs htx
  refine run_two_of_issue idle below inputs fun t hcfg idle_t => ?_
  rw [decodeRequest_diffRead]
  exact diffReadOfALegalPairIssuesItsTransfer t p m tx idle_t (hcfg ▸ hp) pair (hcfg ▸ htx)

end Sys2Proof.Machine
end

section
/-! PROOFS. The machine as a whole: its parameters (00_scope.md R6), and that ordinary inputs never stop it. -/

namespace Sys2Proof.Machine

variable {ε δ : Type}

/-- A view of the states that every step of two machines respects, every run respects. -/
theorem run_mapNext {σ τ φ ρ : Type} {view : σ → τ} {step₁ : σ → Host.Outcome σ φ ρ} {step₂ : τ → Host.Outcome τ φ ρ}
    (reset₁ : σ) (reset₂ : τ) (respects : ∀ s, step₂ (view s) = mapNext view (step₁ s)) (k : Nat) (s : σ) :
    Host.Core.run ⟨τ, φ, ρ, step₂, reset₂⟩ k (view s) = mapNext view (Host.Core.run ⟨σ, φ, ρ, step₁, reset₁⟩ k s) := by
  induction k generalizing s with
  | zero => rfl
  | succ k ih =>
    simp only [Host.Core.run, respects]
    cases step₁ s with
    | next s' => exact ih s'
    | fault r => rfl
    | refused r => rfl

/-- Settles O52: no definition of the machine reads the bus parameters, so the two machines are one by unfolding. -/
theorem busParametersAreReadByNothing : Obligations.BusParametersAreReadByNothing := fun _ _ _ _ _ => rfl

/-- Settles O50: the view is the block with its configuration beside it. -/
theorem configurationIsAnArgumentOfTheMachine : Obligations.ConfigurationIsAnArgumentOfTheMachine := by
  intro cfg k b
  exact ⟨run_mapNext (view := Block.configured cfg) (step₁ := stepFor cfg) (step₂ := step) (Block.resetFor cfg) State.reset
    (fun _ => rfl) k b, rfl⟩

theorem Block.perform_renamePeriph (f : ε → δ) (cfg : Config) (b : Block ε) (a : Action ε) :
    (b.renamePeriph f).perform cfg (a.renamePeriph f) = mapNext (Block.renamePeriph f) (b.perform cfg a) := by
  cases a with
  | stay => rfl
  | accept w rest =>
    show ((b.withInputs rest).renamePeriph f).runWord cfg w = mapNext _ ((b.withInputs rest).runWord cfg w)
    unfold Block.runWord
    cases decode cfg w with
    | ok i => exact Block.exec_renamePeriph f cfg i _
    | error e => rfl
  | complete a rest => exact Block.complete_renamePeriph f cfg a (b.withInputs rest)
  | ignore rest => rfl
  | reset rest => rfl

/-- R41: no step looks inside a transport error value. -/
theorem stepFor_renamePeriph (f : ε → δ) (cfg : Config) (b : Block ε) :
    stepFor cfg (b.renamePeriph f) = mapNext (Block.renamePeriph f) (stepFor cfg b) := by
  rw [stepFor, Block.nextAction_renamePeriph, Block.perform_renamePeriph, stepFor]

/-- Settles O51: the view is the renaming. -/
theorem transportErrorValuesAreOpaque : Obligations.TransportErrorValuesAreOpaque := by
  intro ε δ f cfg k b
  exact run_mapNext (Block.resetFor cfg) (Block.resetFor cfg) (stepFor_renamePeriph f cfg) k b

/-! Ordinary inputs. -/

theorem Block.whenIdle_accept_next (b : Block ε) (c : Except RequestError (List Byte)) :
    ∃ b', b.whenIdle (Block.accept c) = .next b' := by
  cases hp : b.phase with
  | waitXfer => exact ⟨b, Block.whenIdle_waitXfer hp _⟩
  | idle =>
    rw [Block.whenIdle_idle hp]
    obtain ⟨e, -, is⟩ | ⟨tx, -, is⟩ := Block.accept_cases b c <;> exact ⟨_, is⟩

/-- R72, R209: every request word is answered or issues a `Transfer`; none stops the block. -/
theorem Block.exec_decodeRequest_next (cfg : Config) (w : Req24) (b : Block ε) : ∃ b', b.exec cfg (decodeRequest w) = .next b' := by
  unfold decodeRequest
  split
  case isTrue => exact b.whenIdle_accept_next _
  case isFalse =>
    split
    case isTrue => exact b.whenIdle_accept_next _
    case isFalse => exact b.whenIdle_accept_next _

/-- R41: an answer that keeps the contract completes the transaction. -/
theorem Block.complete_ordinary {cfg : Config} {a : Answer ε} (h : (Input.answer a).ordinary cfg = true) (b : Block ε) :
    ∃ b', b.complete cfg a = .next b' := by
  cases a with
  | err e => exact ⟨_, rfl⟩
  | ok rx => exact ⟨_, Block.complete_of_length_eq (beq_iff_eq.mp h) b⟩

theorem Block.exec_inputs {cfg : Config} {i : Instr} {b b' : Block ε} (h : b.exec cfg i = .next b') : b'.inputs = b.inputs := by
  obtain ⟨-, is⟩ | ⟨-, ⟨e, is⟩ | ⟨mode, addr, -, is⟩⟩ := Block.exec_next_cases h <;> rw [is] <;> rfl

theorem Block.complete_inputs {cfg : Config} {a : Answer ε} {b b' : Block ε} (h : b.complete cfg a = .next b') :
    b'.inputs = b.inputs := by
  obtain ⟨e, -, is⟩ | ⟨rx, -, -, is⟩ := Block.complete_next h <;> rw [is] <;> rfl

/-- An input taken from behind the words held leaves the others. -/
theorem held_subset (held : List PortWord) (x : Input ε) (rest : List (Input ε)) :
    held.map Input.present ++ rest ⊆ held.map Input.present ++ x :: rest :=
  List.append_subset.mpr ⟨List.subset_append_left _ _, fun _ h => List.mem_append_right _ (List.mem_cons_of_mem _ h)⟩

theorem stepFor_idle_ordinary {cfg : Config} {b : Block ε} (idle : b.phase = .idle)
    (ordinary : ∀ x ∈ b.inputs, x.ordinary cfg = true) : ∃ b', stepFor cfg b = .next b' ∧ b'.inputs ⊆ b.inputs := by
  simp only [stepFor, Block.nextAction, idle]
  cases inputs : b.inputs with
  | nil => exact ⟨b, rfl, fun _ h => inputs ▸ h⟩
  | cons x rest =>
    have tail : rest ⊆ x :: rest := List.subset_cons_self x rest
    cases x with
    | present w =>
      cases w with
      | request w =>
        obtain ⟨b', run⟩ := Block.exec_decodeRequest_next cfg w (b.withInputs rest)
        exact ⟨b', run, by rw [Block.exec_inputs run]; exact tail⟩
      | frame bytes => cases ordinary (.present (.frame bytes)) (inputs ▸ List.mem_cons_self)
    | answer a => exact ⟨_, rfl, tail⟩
    | lateAnswer a => exact ⟨_, rfl, tail⟩
    | reset => exact ⟨_, rfl, tail⟩

theorem stepFor_waiting_ordinary {cfg : Config} {b : Block ε} (waiting : b.phase = .waitXfer)
    (ordinary : ∀ x ∈ b.inputs, x.ordinary cfg = true) : ∃ b', stepFor cfg b = .next b' ∧ b'.inputs ⊆ b.inputs := by
  rw [stepFor_waiting waiting]
  obtain ⟨held, inputs, act⟩ | ⟨held, a, rest, inputs, act⟩ | ⟨held, a, rest, inputs, act⟩ | ⟨held, rest, inputs, act⟩ :=
    waitAction_cases b.inputs <;> rw [act]
  · exact ⟨b, rfl, List.Subset.refl _⟩
  · obtain ⟨b', run⟩ := Block.complete_ordinary (ordinary (.answer a) (by rw [inputs]; simp))
      (b.withInputs (held.map Input.present ++ rest))
    exact ⟨b', run, by rw [Block.complete_inputs run, inputs]; exact held_subset held _ rest⟩
  · exact ⟨_, rfl, by rw [inputs]; exact held_subset held _ rest⟩
  · exact ⟨_, rfl, by rw [inputs]; exact held_subset held _ rest⟩

/-- With ordinary inputs a step goes on, and what it leaves is ordinary. -/
theorem step_ordinary {s : State} (ordinary : ∀ x ∈ s.inputs, x.ordinary s.cfg = true) :
    ∃ t, step s = .next t ∧ ∀ x ∈ t.inputs, x.ordinary t.cfg = true := by
  obtain ⟨b', run, left⟩ : ∃ b', stepFor s.cfg s.toBlock = .next b' ∧ b'.inputs ⊆ s.inputs := by
    cases hp : s.phase with
    | idle => exact stepFor_idle_ordinary hp ordinary
    | waitXfer => exact stepFor_waiting_ordinary hp ordinary
  exact ⟨b'.configured s.cfg, step_next.mpr ⟨run, rfl⟩, fun x hx => ordinary x (left hx)⟩

/-- Settles O48: by induction on the length of the run, as each step leaves ordinary inputs. -/
theorem ordinaryInputsNeverStopTheBlock : Obligations.OrdinaryInputsNeverStopTheBlock := by
  intro k
  induction k with
  | zero => exact fun s _ => ⟨s, rfl⟩
  | succ k ih =>
    intro s ordinary
    obtain ⟨u, run, left⟩ := step_ordinary ordinary
    obtain ⟨t, runs_on⟩ := ih u left
    exact ⟨t, (core_run_succ_of_next k run).trans runs_on⟩

end Sys2Proof.Machine
end
